-- ==== Sys2Proof/Word.lean ====
section
/-! DEFINITION. The word types of the block: 8-bit registers and 16-bit pair views (00_scope.md R8). -/

namespace Sys2Proof

/-- An 8-bit value, 0..255: a register, the flag byte, a command byte (00_scope.md R8). -/
abbrev Byte := BitVec 8

/-- A 16-bit value, 0..65535: a composite pair view (00_scope.md R8). -/
abbrev Word16 := BitVec 16

/-- A 4-bit field of the command byte: an op code or a target code (30_encoding.md R55). -/
abbrev Nibble := BitVec 4

end Sys2Proof
end

