-- ==== Sys2Proof/Syntax.lean ====
section
/-! DEFINITION. The block's inputs as typed data: instruction tags, operand targets and instructions
(30_encoding.md R50 to R53). One constructor of Instr per row of spec/opcode_table.json. -/

namespace Sys2Proof

/-- The seven 8-bit registers that can be named (10_state.md R20, R27). F is not among them. -/
inductive Reg8 where
  | a | b | c | d | e | h | l
deriving DecidableEq, Repr

/-- The four 16-bit composite views (10_state.md R29). -/
inductive Pair where
  | af | bc | de | hl
deriving DecidableEq, Repr

/-- What a target code names (30_encoding.md R52, R53): a register, a pair, or nothing. The last form keeps its
code, since an error records the offending target (60_exceptions.md R121). -/
inductive OperandTarget where
  | reg8 (r : Reg8)
  | pair (p : Pair)
  | unassigned (code : Nibble)
deriving DecidableEq, Repr

/-- The instruction tags, one per op code (30_encoding.md R50, R51). The three UNIMPL op codes are told apart only
because each is an op code of its own; "all five behave identically" (R51). -/
inductive Tag where
  | add | adc | addpair | sub | sbc | and | or | xor | cp | inc | dec
  | inc16 | dec16 | unimplD | unimplE | unimplF
deriving DecidableEq, Repr

/-- An instruction with its operand target, one constructor per row of the opcode table. -/
inductive Instr where
  | add (t : OperandTarget)
  | adc (t : OperandTarget)
  | addpair (t : OperandTarget)
  | sub (t : OperandTarget)
  | sbc (t : OperandTarget)
  | and (t : OperandTarget)
  | or (t : OperandTarget)
  | xor (t : OperandTarget)
  | cp (t : OperandTarget)
  | inc (t : OperandTarget)
  | dec (t : OperandTarget)
  | inc16 (t : OperandTarget)
  | dec16 (t : OperandTarget)
  | unimplD (t : OperandTarget)
  | unimplE (t : OperandTarget)
  | unimplF (t : OperandTarget)
deriving DecidableEq, Repr

/-- The tag of an instruction. -/
def Instr.tag : Instr → Tag
  | .add _ => .add
  | .adc _ => .adc
  | .addpair _ => .addpair
  | .sub _ => .sub
  | .sbc _ => .sbc
  | .and _ => .and
  | .or _ => .or
  | .xor _ => .xor
  | .cp _ => .cp
  | .inc _ => .inc
  | .dec _ => .dec
  | .inc16 _ => .inc16
  | .dec16 _ => .dec16
  | .unimplD _ => .unimplD
  | .unimplE _ => .unimplE
  | .unimplF _ => .unimplF

/-- The operand target of an instruction. -/
def Instr.target : Instr → OperandTarget
  | .add t => t
  | .adc t => t
  | .addpair t => t
  | .sub t => t
  | .sbc t => t
  | .and t => t
  | .or t => t
  | .xor t => t
  | .cp t => t
  | .inc t => t
  | .dec t => t
  | .inc16 t => t
  | .dec16 t => t
  | .unimplD t => t
  | .unimplE t => t
  | .unimplF t => t

/-- The instruction with a given tag and target. -/
def Tag.apply : Tag → OperandTarget → Instr
  | .add => .add
  | .adc => .adc
  | .addpair => .addpair
  | .sub => .sub
  | .sbc => .sbc
  | .and => .and
  | .or => .or
  | .xor => .xor
  | .cp => .cp
  | .inc => .inc
  | .dec => .dec
  | .inc16 => .inc16
  | .dec16 => .dec16
  | .unimplD => .unimplD
  | .unimplE => .unimplE
  | .unimplF => .unimplF

/-- The Dispatcher's classes (40_dispatch.md R72); noHandler is the table's last row. -/
inductive Family where
  | accumulator8 | pair16 | incDec | noHandler
deriving DecidableEq, Repr

/-- The classification of 40_dispatch.md R72. -/
def Tag.family : Tag → Family
  | .add | .adc | .sub | .sbc | .and | .or | .xor | .cp => .accumulator8
  | .addpair => .pair16
  | .inc | .dec => .incDec
  | .inc16 | .dec16 | .unimplD | .unimplE | .unimplF => .noHandler

end Sys2Proof
end

