-- ==== Sys2Proof/WellFormed.lean ====
section
/-! DEFINITION. Which instruction terms stand for a command byte (wellFormed), and which of those execute
(legal: the 74 pairs of 30_encoding.md R54). -/

namespace Sys2Proof

/-- The target codes that name no target (30_encoding.md R53). -/
def unassignedCodes : List Nibble := [0x7#4, 0xC#4, 0xD#4, 0xE#4, 0xF#4]

/-- A target is well formed when it is the one reading of some target code: a code that names a register or a pair
is never written as unassigned (30_encoding.md R52, R53). -/
def OperandTarget.wellFormed : OperandTarget → Bool
  | .reg8 _ => true
  | .pair _ => true
  | .unassigned code => unassignedCodes.contains code

/-- An instruction is well formed when its target is: every op code takes every target code
(30_encoding.md R56), legal or not. -/
def Instr.wellFormed (i : Instr) : Bool := i.target.wellFormed

/-- An 8-bit register target. -/
def OperandTarget.isReg8 : OperandTarget → Bool
  | .reg8 _ => true
  | .pair _ => false
  | .unassigned _ => false

/-- A 16-bit pair target. -/
def OperandTarget.isPair : OperandTarget → Bool
  | .reg8 _ => false
  | .pair _ => true
  | .unassigned _ => false

/-- The legal (instruction, target) pairs of 30_encoding.md R54. -/
def Instr.legal (i : Instr) : Bool :=
  match i.tag.family with
  | .accumulator8 => i.target.isReg8
  | .pair16 => i.target.isPair
  | .incDec => i.target.isReg8
  | .noHandler => false

end Sys2Proof
end

