-- ==== Sys2Proof/Decode.lean ====
section
/-! DEFINITION. The command byte (30_encoding.md R55): decoding, then the encoder, then the opcode table's rows and
the host's word form. The encoding is the spec's own (92 D2), not the Game Boy's (93 G4). -/

namespace Sys2Proof

/-- The op field of a command byte, cmd[7:4] (30_encoding.md R55). -/
def opField (cmd : Byte) : Nibble := cmd.extractLsb' 4 4

/-- The tgt field of a command byte, cmd[3:0] (30_encoding.md R55). -/
def tgtField (cmd : Byte) : Nibble := cmd.extractLsb' 0 4

/-- The target a target code names (30_encoding.md R52, R53). -/
def OperandTarget.ofCode (code : Nibble) : OperandTarget :=
  match code.toNat with
  | 0x0 => .reg8 .a
  | 0x1 => .reg8 .b
  | 0x2 => .reg8 .c
  | 0x3 => .reg8 .d
  | 0x4 => .reg8 .e
  | 0x5 => .reg8 .h
  | 0x6 => .reg8 .l
  | 0x8 => .pair .af
  | 0x9 => .pair .bc
  | 0xA => .pair .de
  | 0xB => .pair .hl
  | _ => .unassigned code

/-- The tag an op code stands for (30_encoding.md R50, R51). -/
def Tag.ofOpCode (op : Nibble) : Tag :=
  match op.toNat with
  | 0x0 => .add
  | 0x1 => .adc
  | 0x2 => .addpair
  | 0x3 => .sub
  | 0x4 => .sbc
  | 0x5 => .and
  | 0x6 => .or
  | 0x7 => .xor
  | 0x8 => .cp
  | 0x9 => .inc
  | 0xA => .dec
  | 0xB => .inc16
  | 0xC => .dec16
  | 0xD => .unimplD
  | 0xE => .unimplE
  | _ => .unimplF

/-- Decoding a command byte is total: "No value is a decode error" (30_encoding.md R56). -/
def decodeByte (cmd : Byte) : Instr :=
  (Tag.ofOpCode (opField cmd)).apply (OperandTarget.ofCode (tgtField cmd))

/-- Why a list of command bytes gives no instruction. Raised by decode only; safe: the block is idle then
(60_exceptions.md R133), and no byte is ever the reason (30_encoding.md R56). -/
inductive DecodeReject where
  /-- No command byte stands at the Execute port. -/
  | noCommand
deriving DecidableEq, Repr

/-- The first command of a list of command bytes, with the rest of the list. Every command is one byte
(30_encoding.md R58). -/
def decode : List Byte → Except DecodeReject (Instr × List Byte)
  | [] => .error .noCommand
  | cmd :: rest => .ok (decodeByte cmd, rest)

/-- The target code of a register (30_encoding.md R52). -/
def Reg8.code : Reg8 → Nibble
  | .a => 0x0#4
  | .b => 0x1#4
  | .c => 0x2#4
  | .d => 0x3#4
  | .e => 0x4#4
  | .h => 0x5#4
  | .l => 0x6#4

/-- The target code of a pair (30_encoding.md R52). -/
def Pair.code : Pair → Nibble
  | .af => 0x8#4
  | .bc => 0x9#4
  | .de => 0xA#4
  | .hl => 0xB#4

/-- The target code of a target (30_encoding.md R52, R53). -/
def OperandTarget.code : OperandTarget → Nibble
  | .reg8 r => r.code
  | .pair p => p.code
  | .unassigned code => code

/-- The op code of a tag (30_encoding.md R50, R51). -/
def Tag.opCode : Tag → Nibble
  | .add => 0x0#4
  | .adc => 0x1#4
  | .addpair => 0x2#4
  | .sub => 0x3#4
  | .sbc => 0x4#4
  | .and => 0x5#4
  | .or => 0x6#4
  | .xor => 0x7#4
  | .cp => 0x8#4
  | .inc => 0x9#4
  | .dec => 0xA#4
  | .inc16 => 0xB#4
  | .dec16 => 0xC#4
  | .unimplD => 0xD#4
  | .unimplE => 0xE#4
  | .unimplF => 0xF#4

/-- cmd = (op << 4) | tgt (30_encoding.md R55). -/
def commandByte (op tgt : Nibble) : Byte :=
  (op.setWidth 8 <<< 4) ||| tgt.setWidth 8

/-- The command byte of an instruction (30_encoding.md R55). -/
def encodeByte (i : Instr) : Byte := commandByte i.tag.opCode i.target.code

/-- The words of an instruction: one byte (30_encoding.md R58). -/
def encode (i : Instr) : List Byte := [encodeByte i]

/-- A row of the opcode table as 30_encoding.md section 7 describes it: a byte selects the row when
(cmd & mask) == match. -/
structure OpcodeRow where
  tag : Tag
  pattern : Byte
  mask : Byte
deriving DecidableEq, Repr

/-- The rows of spec/opcode_table.json: match and mask of each op code, in the table's order. -/
def opcodeTable : List OpcodeRow :=
  [⟨.add, 0x00#8, 0xF0#8⟩, ⟨.adc, 0x10#8, 0xF0#8⟩, ⟨.addpair, 0x20#8, 0xF0#8⟩, ⟨.sub, 0x30#8, 0xF0#8⟩]
  ++ [⟨.sbc, 0x40#8, 0xF0#8⟩, ⟨.and, 0x50#8, 0xF0#8⟩, ⟨.or, 0x60#8, 0xF0#8⟩, ⟨.xor, 0x70#8, 0xF0#8⟩]
  ++ [⟨.cp, 0x80#8, 0xF0#8⟩, ⟨.inc, 0x90#8, 0xF0#8⟩, ⟨.dec, 0xA0#8, 0xF0#8⟩, ⟨.inc16, 0xB0#8, 0xF0#8⟩]
  ++ [⟨.dec16, 0xC0#8, 0xF0#8⟩, ⟨.unimplD, 0xD0#8, 0xF0#8⟩, ⟨.unimplE, 0xE0#8, 0xF0#8⟩, ⟨.unimplF, 0xF0#8, 0xF0#8⟩]

/-- A command byte selects a row (30_encoding.md section 7). -/
def OpcodeRow.selects (row : OpcodeRow) (cmd : Byte) : Bool := (cmd &&& row.mask) == row.pattern

/-- The command byte that a table word of nbits bits stands for: its bits above nbits are 0, and an instruction is
one byte long (30_encoding.md R58). DESIGN CHOICE (log 4). -/
def tableByte (nbits w : Nat) : Byte := BitVec.ofNat 8 (w % 2 ^ nbits)

/-- The instruction the decoder reads from a word of the opcode table. -/
def decodeTableWord (nbits w : Nat) : Option Instr :=
  match decode [tableByte nbits w] with
  | .ok (i, _) => some i
  | .error _ => none

end Sys2Proof
end

