-- ==== Sys2Proof/Config.lean ====
section
/-! DEFINITION. The implementation parameters of 00_scope.md R6. Every one is fixed by the spec ("None is left
open to the implementation"), so this file holds constants and no free value. -/

namespace Sys2Proof.Config

/-- Bit position of Zero in the flag byte (10_state.md R22). -/
abbrev zeroBit : Nat := 7

/-- Bit position of Subtraction in the flag byte (10_state.md R22). -/
abbrev subtractionBit : Nat := 6

/-- Bit position of HalfCarry in the flag byte (10_state.md R22). -/
abbrev halfCarryBit : Nat := 5

/-- Bit position of Carry in the flag byte (10_state.md R22). -/
abbrev carryBit : Nat := 4

/-- The bits of F that have storage; F[3:0] are tied to 0 (10_state.md R21). -/
abbrev flagBits : Byte := 0xF0#8

end Sys2Proof.Config
end

