-- ==== Sys2Proof/Machine/State.lean ====
section
/-! DEFINITION. The state of the block (10_state.md section 1) with what stands at its two ports, its state right
after creation, and the ways a step could stop. -/

namespace Sys2Proof.Machine

/-- "four independent booleans — Zero, Subtraction, HalfCarry, Carry" (10_state.md R22). A value the codec makes
from F and back, not storage of its own. -/
structure FlagState where
  zero : Bool
  subtraction : Bool
  halfCarry : Bool
  carry : Bool
deriving DecidableEq, Repr

/-- "the sole mutable state" of the block (10_state.md R20, R21): seven 8-bit registers and the flag byte F. F is
kept in a byte whose bits 3..0 have no meaning: they are tied to 0 wherever F is read (log 5). -/
structure RegisterFile where
  a : Byte
  b : Byte
  c : Byte
  d : Byte
  e : Byte
  h : Byte
  l : Byte
  f : Byte
deriving DecidableEq, Repr

/-- What one Execute returns (30_encoding.md R59; 60_exceptions.md R120 to R122): Ok, or an error that records the
offending target or the offending tag. -/
inductive ExecResult where
  /-- Ok: the instruction executed. -/
  | ok
  /-- InvalidOperandWidth, with the offending target (60_exceptions.md R121). -/
  | invalidOperandWidth (t : OperandTarget)
  /-- UnsupportedInstruction, with the offending tag (60_exceptions.md R122). -/
  | unsupportedInstruction (g : Tag)
deriving DecidableEq, Repr

/-- The block between two Executes: its register file, and the model's own two port fields (log 2, log 3).
No instruction reads result or pending. -/
structure State where
  /-- The register file (10_state.md R20). -/
  regs : RegisterFile
  /-- What the last Execute returned on the Execute port (30_encoding.md R59). -/
  result : ExecResult
  /-- The command bytes the caller issues next, oldest first (20_memory.md R46). -/
  pending : List Byte
deriving DecidableEq, Repr

/-- The read-only copy Snapshot() returns (10_state.md R36). -/
structure Snapshot where
  a : Byte
  b : Byte
  c : Byte
  d : Byte
  e : Byte
  h : Byte
  l : Byte
  flags : FlagState
deriving DecidableEq, Repr

/-- Faults. There is none: the block has no trap of any kind, and its two errors are results that Execute returns
before the block goes on (60_exceptions.md R120, R125, R126), so they are next states (log 1, log 7). Safe: no claim
can rest on a fault. -/
inductive Fault where
deriving DecidableEq, Repr

/-- Refusals. -/
inductive Refusal where
  /-- An instruction that has no meaning in the model yet. Raised only by an arm of exec that rejects its instruction
  by name; no arm does. Safe. -/
  | notModelled (mnemonic : String)
deriving DecidableEq, Repr

/-- What one step answers. -/
abbrev StepOutcome := Host.Outcome State Fault Refusal

/-- The register file at creation, "all fields zero-initialized" (10_state.md R38; 70_reset_and_hazards.md R140). -/
def RegisterFile.created : RegisterFile :=
  { a := 0x00#8, b := 0x00#8, c := 0x00#8, d := 0x00#8, e := 0x00#8, h := 0x00#8, l := 0x00#8, f := 0x00#8 }

/-- The block right after creation (70_reset_and_hazards.md R140): registers and F zero, nothing issued yet.
DESIGN CHOICE (log 2): result is Ok, status code 0, before the first Execute. -/
def State.reset : State :=
  { regs := RegisterFile.created, result := .ok, pending := [] }

end Sys2Proof.Machine
end

