-- ==== Sys2Proof/Machine/Flags.lean ====
section
/-! DEFINITION. The flag codec (10_state.md R24, R25) and every flag computation of the families
(41_alu8_arith.md to 44_alu16_pair.md), over unbounded integers (00_scope.md R8). -/

namespace Sys2Proof.Machine

/-- A boolean as a bit of a byte (00_scope.md R9: true is 1, false is 0). -/
def flagBit (b : Bool) (position : Nat) : Byte := (BitVec.ofBool b).setWidth 8 <<< position

/-- encode(f) = (Z << 7) | (N << 6) | (H << 5) | (C << 4); it has no input from the current F (10_state.md R24). -/
def FlagState.encode (f : FlagState) : Byte :=
  flagBit f.zero Config.zeroBit ||| flagBit f.subtraction Config.subtractionBit
    ||| flagBit f.halfCarry Config.halfCarryBit ||| flagBit f.carry Config.carryBit

/-- decode(b) = (Z = b[7], N = b[6], H = b[5], C = b[4]); bits 3..0 are ignored (10_state.md R25). -/
def FlagState.decode (b : Byte) : FlagState :=
  { zero := b.getLsbD Config.zeroBit
    subtraction := b.getLsbD Config.subtractionBit
    halfCarry := b.getLsbD Config.halfCarryBit
    carry := b.getLsbD Config.carryBit }

/-- x & 0xF of an 8-bit value, as a number (00_scope.md R8, R9). -/
def lowNibble (x : Byte) : Nat := (x &&& 0x0F#8).toNat

/-- x & 0xFFF of a 16-bit value, as a number (44_alu16_pair.md R110). -/
def lowTwelve (x : Word16) : Nat := (x &&& 0x0FFF#16).toNat

/-- Flags of an 8-bit addition (41_alu8_arith.md R80): carry out of bit 3 and of bit 7, Z from the wrapped sum. -/
def addFlags (a v : Byte) : FlagState :=
  { zero := BitVec.ofNat 8 (a.toNat + v.toNat) == 0x00#8
    subtraction := false
    halfCarry := decide (lowNibble a + lowNibble v > 0xF)
    carry := decide (a.toNat + v.toNat > 0xFF) }

/-- Flags of an 8-bit subtraction (41_alu8_arith.md R82): borrow out of bit 3, and C as unsigned underflow. -/
def subFlags (a v : Byte) : FlagState :=
  { zero := BitVec.ofInt 8 ((a.toNat : Int) - (v.toNat : Int)) == 0x00#8
    subtraction := true
    halfCarry := decide (lowNibble a < lowNibble v)
    carry := decide (a.toNat < v.toNat) }

/-- Flags of AND (42_alu8_logic.md R90): H is 1 always, N and C are 0. -/
def andFlags (res : Byte) : FlagState :=
  { zero := res == 0x00#8, subtraction := false, halfCarry := true, carry := false }

/-- Flags of OR and XOR (42_alu8_logic.md R91, R92): N, H and C are 0. -/
def orFlags (res : Byte) : FlagState :=
  { zero := res == 0x00#8, subtraction := false, halfCarry := false, carry := false }

/-- Flags of INC (43_incdec.md R100): H from the low nibble, C the value c0 it had before. -/
def incFlags (x : Byte) (c0 : Bool) : FlagState :=
  { zero := BitVec.ofNat 8 (x.toNat + 1) == 0x00#8
    subtraction := false
    halfCarry := decide (lowNibble x + 1 > 0xF)
    carry := c0 }

/-- Flags of DEC (43_incdec.md R101): H is the borrow out of bit 3, C the value c0 it had before. -/
def decFlags (x : Byte) (c0 : Bool) : FlagState :=
  { zero := BitVec.ofNat 8 (x.toNat + 255) == 0x00#8
    subtraction := true
    halfCarry := lowNibble x == 0
    carry := c0 }

/-- Flags of ADDPAIR (44_alu16_pair.md R110): Z IS written, H is the carry out of bit 11, C out of bit 15. -/
def addPairFlags (hl v : Word16) : FlagState :=
  { zero := BitVec.ofNat 16 (hl.toNat + v.toNat) == 0x0000#16
    subtraction := false
    halfCarry := decide (lowTwelve hl + lowTwelve v > 0xFFF)
    carry := decide (hl.toNat + v.toNat > 0xFFFF) }

end Sys2Proof.Machine
end

