-- ==== Sys2Proof/Machine/Ops.lean ====
section
/-! DEFINITION. The named operations: the register-file ports (10_state.md R27 to R32), Snapshot (R36), the two ends of
an Execute (60_exceptions.md R120), and taking the next command off the Execute port. There is no memory
(20_memory.md R40) and no return from an error (60_exceptions.md R126). -/

namespace Sys2Proof.Machine

/-- Get8(r) (10_state.md R27). -/
def RegisterFile.get8 (rf : RegisterFile) : Reg8 → Byte
  | .a => rf.a
  | .b => rf.b
  | .c => rf.c
  | .d => rf.d
  | .e => rf.e
  | .h => rf.h
  | .l => rf.l

/-- Set8(r, v): writes r and nothing else (10_state.md R28). -/
def RegisterFile.set8 (rf : RegisterFile) (r : Reg8) (v : Byte) : RegisterFile :=
  match r with
  | .a => { rf with a := v }
  | .b => { rf with b := v }
  | .c => { rf with c := v }
  | .d => { rf with d := v }
  | .e => { rf with e := v }
  | .h => { rf with h := v }
  | .l => { rf with l := v }

/-- F as it reads: bits 3..0 are tied to 0 (10_state.md R21; log 5). The one place F's storage is read. -/
def RegisterFile.flagByte (rf : RegisterFile) : Byte := rf.f &&& Config.flagBits

/-- GetFlags() (10_state.md R31). -/
def RegisterFile.getFlags (rf : RegisterFile) : FlagState := FlagState.decode rf.flagByte

/-- SetFlags(f): F is fully overwritten, "no partial merge" (10_state.md R32). The one place F's storage is written. -/
def RegisterFile.setFlags (rf : RegisterFile) (f : FlagState) : RegisterFile := { rf with f := f.encode }

/-- (h << 8) | l (00_scope.md R9). -/
def concat (h l : Byte) : Word16 := (h.setWidth 16 <<< 8) ||| l.setWidth 16

/-- v[15:8]. -/
def highByte (v : Word16) : Byte := v.extractLsb' 8 8

/-- v[7:0]. -/
def lowByte (v : Word16) : Byte := v.extractLsb' 0 8

/-- GetPair(p): the first-named register is the high byte (10_state.md R29; 20_memory.md R42). -/
def RegisterFile.getPair (rf : RegisterFile) : Pair → Word16
  | .af => concat (rf.get8 .a) rf.flagByte
  | .bc => concat (rf.get8 .b) (rf.get8 .c)
  | .de => concat (rf.get8 .d) (rf.get8 .e)
  | .hl => concat (rf.get8 .h) (rf.get8 .l)

/-- SetPair(p, v): high byte to the first register, low byte to the second; AF's low byte goes through the codec
(10_state.md R30; 90 C2). No Execute writes AF. -/
def RegisterFile.setPair (rf : RegisterFile) (p : Pair) (v : Word16) : RegisterFile :=
  match p with
  | .af => (rf.set8 .a (highByte v)).setFlags (FlagState.decode (lowByte v))
  | .bc => (rf.set8 .b (highByte v)).set8 .c (lowByte v)
  | .de => (rf.set8 .d (highByte v)).set8 .e (lowByte v)
  | .hl => (rf.set8 .h (highByte v)).set8 .l (lowByte v)

/-- Snapshot(): the seven registers and decode(F), all from one state (10_state.md R36). -/
def RegisterFile.snapshot (rf : RegisterFile) : Snapshot :=
  { a := rf.get8 .a, b := rf.get8 .b, c := rf.get8 .c, d := rf.get8 .d, e := rf.get8 .e, h := rf.get8 .h, l := rf.get8 .l
    flags := rf.getFlags }

/-- The Snapshot port of the block (10_state.md R35, R36). -/
def State.snapshot (s : State) : Snapshot := s.regs.snapshot

/-- The 2-bit status output (30_encoding.md R59). The payload of an error is not on it (92 D7). -/
def ExecResult.statusCode : ExecResult → BitVec 2
  | .ok => 0#2
  | .invalidOperandWidth _ => 1#2
  | .unsupportedInstruction _ => 2#2

/-- An Execute that returns Ok: the written register file is committed in one transition (20_memory.md R45). -/
def returnOk (regs : RegisterFile) (s : State) : StepOutcome :=
  .next { s with regs := regs, result := .ok }

/-- TAKING AN ERROR, the block's only kind of exception: the error goes back to the caller, no register and no flag
changes (60_exceptions.md R124, R125; 40_dispatch.md R78), and the block is idle again (60_exceptions.md R126). -/
def returnError (err : ExecResult) (s : State) : StepOutcome :=
  .next { s with result := err }

/-- The caller issues a command that is executed before any other still waiting (log 4). -/
def State.issue (s : State) (cmd : Byte) : State := { s with pending := cmd :: s.pending }

/-- Taking the oldest command off the Execute port (20_memory.md R46): the instruction, and the state in which it is
executed. None when nothing is issued. -/
def fetch (s : State) : Option (Instr × State) :=
  match decode s.pending with
  | .ok (i, rest) => some (i, { s with pending := rest })
  | .error _ => none

/-- Between Executes the block is idle and "all state survives idleness" (60_exceptions.md R133). -/
def idle (s : State) : StepOutcome := .next s

end Sys2Proof.Machine
end

