-- ==== Sys2Proof/Machine/Operands.lean ====
section
/-! DEFINITION. The operand multiplexer (40_dispatch.md R70, R71) and the three flows of Execute, one per family
(R72, R73). Every read sees the state before the Execute (70_reset_and_hazards.md R146). -/

namespace Sys2Proof.Machine

/-- ResolveU8(t): the value of an 8-bit register target; any other target is InvalidOperandWidth (40_dispatch.md R70). -/
def resolveU8 (t : OperandTarget) (rf : RegisterFile) : Except ExecResult Byte :=
  match t with
  | .reg8 r => .ok (rf.get8 r)
  | .pair _ => .error (.invalidOperandWidth t)
  | .unassigned _ => .error (.invalidOperandWidth t)

/-- ResolveU16(t): the value of a pair target; any other target is InvalidOperandWidth (40_dispatch.md R71). -/
def resolveU16 (t : OperandTarget) (rf : RegisterFile) : Except ExecResult Word16 :=
  match t with
  | .reg8 _ => .error (.invalidOperandWidth t)
  | .pair p => .ok (rf.getPair p)
  | .unassigned _ => .error (.invalidOperandWidth t)

/-- The 8-bit accumulator flow of 40_dispatch.md R73, for an operation that writes A. -/
def executeAccumulator (alu : Byte → Byte → Byte × FlagState) (t : OperandTarget) (s : State) : StepOutcome :=
  match resolveU8 t s.regs with
  | .error err => returnError err s
  | .ok v => returnOk ((s.regs.set8 .a (alu (s.regs.get8 .a) v).1).setFlags (alu (s.regs.get8 .a) v).2) s

/-- The 8-bit accumulator flow for CP, which commits flags only (40_dispatch.md R73, "if op != CP"). -/
def executeCompare (alu : Byte → Byte → Byte × FlagState) (t : OperandTarget) (s : State) : StepOutcome :=
  match resolveU8 t s.regs with
  | .error err => returnError err s
  | .ok v => returnOk (s.regs.setFlags (alu (s.regs.get8 .a) v).2) s

/-- The 16-bit pair flow of 40_dispatch.md R73: HL is left operand and destination. -/
def executePair (alu : Word16 → Word16 → Word16 × FlagState) (t : OperandTarget) (s : State) : StepOutcome :=
  match resolveU16 t s.regs with
  | .error err => returnError err s
  | .ok v => returnOk ((s.regs.setPair .hl (alu (s.regs.getPair .hl) v).1).setFlags (alu (s.regs.getPair .hl) v).2) s

/-- Writing the named register of an increment or decrement; a target that names no register has none to write. -/
def writeTarget (t : OperandTarget) (v : Byte) (rf : RegisterFile) : RegisterFile :=
  match t with
  | .reg8 r => rf.set8 r v
  | .pair _ => rf
  | .unassigned _ => rf

/-- The single-register flow of 40_dispatch.md R73: the target is source and destination, and the old Carry is read. -/
def executeIncDec (alu : Byte → Bool → Byte × FlagState) (t : OperandTarget) (s : State) : StepOutcome :=
  match resolveU8 t s.regs with
  | .error err => returnError err s
  | .ok x => returnOk ((writeTarget t (alu x s.regs.getFlags.carry).1 s.regs).setFlags (alu x s.regs.getFlags.carry).2) s

/-- A tag with no handler: UnsupportedInstruction, without resolving the target (40_dispatch.md R75;
60_exceptions.md R123). -/
def executeUnsupported (g : Tag) (s : State) : StepOutcome := returnError (.unsupportedInstruction g) s

end Sys2Proof.Machine
end

