-- ==== Sys2Proof/Machine/Arith8.lean ====
section
/-! DEFINITION. 8-bit accumulator arithmetic: ADD, ADC, SUB, SBC, CP (41_alu8_arith.md). The alu functions are pure
and total (40_dispatch.md R76) and compute over unbounded integers (00_scope.md R8). -/

namespace Sys2Proof.Machine

/-- alu_add (41_alu8_arith.md R80). -/
def aluAdd (a v : Byte) : Byte × FlagState := (BitVec.ofNat 8 (a.toNat + v.toNat), addFlags a v)

/-- alu_adc (41_alu8_arith.md R81): the base sum, plus 1 when that addition itself carried. The Carry flag held before
is not read (92 D10). -/
def aluAdc (a v : Byte) : Byte × FlagState :=
  (BitVec.ofNat 8 ((aluAdd a v).1.toNat + (addFlags a v).carry.toNat), addFlags a v)

/-- alu_sub (41_alu8_arith.md R82). -/
def aluSub (a v : Byte) : Byte × FlagState := (BitVec.ofInt 8 ((a.toNat : Int) - (v.toNat : Int)), subFlags a v)

/-- alu_sbc (41_alu8_arith.md R83): the base difference, less 1 when that subtraction itself borrowed. The Carry flag
held before is not read (92 D10). -/
def aluSbc (a v : Byte) : Byte × FlagState :=
  (BitVec.ofInt 8 (((aluSub a v).1.toNat : Int) - ((subFlags a v).carry.toNat : Int)), subFlags a v)

/-- ADD r (41_alu8_arith.md R80). -/
def execAdd (t : OperandTarget) (s : State) : StepOutcome := executeAccumulator aluAdd t s

/-- ADC r (41_alu8_arith.md R81). -/
def execAdc (t : OperandTarget) (s : State) : StepOutcome := executeAccumulator aluAdc t s

/-- SUB r (41_alu8_arith.md R82). -/
def execSub (t : OperandTarget) (s : State) : StepOutcome := executeAccumulator aluSub t s

/-- SBC r (41_alu8_arith.md R83). -/
def execSbc (t : OperandTarget) (s : State) : StepOutcome := executeAccumulator aluSbc t s

/-- CP r (41_alu8_arith.md R84): SUB's flags, A not written. -/
def execCp (t : OperandTarget) (s : State) : StepOutcome := executeCompare aluSub t s

end Sys2Proof.Machine
end

