-- ==== Sys2Proof/Machine/IncDec.lean ====
section
/-! DEFINITION. Single-register increment and decrement: INC, DEC (43_incdec.md). c0 is the Carry flag before. -/

namespace Sys2Proof.Machine

/-- alu_inc (43_incdec.md R100): (x + 1) mod 256. -/
def aluInc (x : Byte) (c0 : Bool) : Byte × FlagState := (BitVec.ofNat 8 (x.toNat + 1), incFlags x c0)

/-- alu_dec (43_incdec.md R101): (x + 255) mod 256. -/
def aluDec (x : Byte) (c0 : Bool) : Byte × FlagState := (BitVec.ofNat 8 (x.toNat + 255), decFlags x c0)

/-- INC r (43_incdec.md R100). -/
def execInc (t : OperandTarget) (s : State) : StepOutcome := executeIncDec aluInc t s

/-- DEC r (43_incdec.md R101). -/
def execDec (t : OperandTarget) (s : State) : StepOutcome := executeIncDec aluDec t s

end Sys2Proof.Machine
end

