-- ==== Sys2Proof/Machine/Logic8.lean ====
section
/-! DEFINITION. 8-bit accumulator logic: AND, OR, XOR (42_alu8_logic.md). -/

namespace Sys2Proof.Machine

/-- The value and flags of AND (42_alu8_logic.md R90). -/
def aluAnd (a v : Byte) : Byte × FlagState := (a &&& v, andFlags (a &&& v))

/-- The value and flags of OR (42_alu8_logic.md R91). -/
def aluOr (a v : Byte) : Byte × FlagState := (a ||| v, orFlags (a ||| v))

/-- The value and flags of XOR (42_alu8_logic.md R92). -/
def aluXor (a v : Byte) : Byte × FlagState := (a ^^^ v, orFlags (a ^^^ v))

/-- AND r (42_alu8_logic.md R90). -/
def execAnd (t : OperandTarget) (s : State) : StepOutcome := executeAccumulator aluAnd t s

/-- OR r (42_alu8_logic.md R91). -/
def execOr (t : OperandTarget) (s : State) : StepOutcome := executeAccumulator aluOr t s

/-- XOR r (42_alu8_logic.md R92). -/
def execXor (t : OperandTarget) (s : State) : StepOutcome := executeAccumulator aluXor t s

end Sys2Proof.Machine
end

