-- ==== Sys2Proof/Machine/Pair16.lean ====
section
/-! DEFINITION. 16-bit pair addition: ADDPAIR (44_alu16_pair.md). -/

namespace Sys2Proof.Machine

/-- alu_addpair (44_alu16_pair.md R110): (hl + v) mod 65536. -/
def aluAddPair (hl v : Word16) : Word16 × FlagState := (BitVec.ofNat 16 (hl.toNat + v.toNat), addPairFlags hl v)

/-- ADDPAIR rr (44_alu16_pair.md R110). -/
def execAddPair (t : OperandTarget) (s : State) : StepOutcome := executePair aluAddPair t s

end Sys2Proof.Machine
end

