-- ==== Sys2Proof/Machine/Unsupported.lean ====
section
/-! DEFINITION. The declared tags with no handler: INC16, DEC16 and the three UNIMPL op codes (30_encoding.md R51;
40_dispatch.md R75). Their whole effect is to return UnsupportedInstruction for any target; the target is not read
(60_exceptions.md R123). -/

namespace Sys2Proof.Machine

/-- INC16, op code 0xB (40_dispatch.md R75). -/
def execInc16 (_t : OperandTarget) (s : State) : StepOutcome := executeUnsupported .inc16 s

/-- DEC16, op code 0xC (40_dispatch.md R75). -/
def execDec16 (_t : OperandTarget) (s : State) : StepOutcome := executeUnsupported .dec16 s

/-- UNIMPL, op code 0xD (40_dispatch.md R75). -/
def execUnimplD (_t : OperandTarget) (s : State) : StepOutcome := executeUnsupported .unimplD s

/-- UNIMPL, op code 0xE (40_dispatch.md R75). -/
def execUnimplE (_t : OperandTarget) (s : State) : StepOutcome := executeUnsupported .unimplE s

/-- UNIMPL, op code 0xF (40_dispatch.md R75). -/
def execUnimplF (_t : OperandTarget) (s : State) : StepOutcome := executeUnsupported .unimplF s

end Sys2Proof.Machine
end

