-- ==== Sys2Proof/Machine/Dispatch.lean ====
section
/-! DEFINITION. Execute (40_dispatch.md R73): one arm per instruction. -/

namespace Sys2Proof.Machine

def exec (i : Instr) (s : State) : Host.Outcome State Fault Refusal :=
  match i with
  -- 8-bit accumulator arithmetic and 16-bit pair addition (41_alu8_arith.md, 44_alu16_pair.md)
  | .add t => Sys2Proof.Machine.execAdd t s
  | .adc t => Sys2Proof.Machine.execAdc t s
  | .addpair t => Sys2Proof.Machine.execAddPair t s
  | .sub t => Sys2Proof.Machine.execSub t s
  | .sbc t => Sys2Proof.Machine.execSbc t s
  -- 8-bit accumulator logic (42_alu8_logic.md)
  | .and t => Sys2Proof.Machine.execAnd t s
  | .or t => Sys2Proof.Machine.execOr t s
  | .xor t => Sys2Proof.Machine.execXor t s
  | .cp t => Sys2Proof.Machine.execCp t s
  -- single-register increment and decrement (43_incdec.md)
  | .inc t => Sys2Proof.Machine.execInc t s
  | .dec t => Sys2Proof.Machine.execDec t s
  -- declared tags with no handler (40_dispatch.md R75)
  | .inc16 t => Sys2Proof.Machine.execInc16 t s
  | .dec16 t => Sys2Proof.Machine.execDec16 t s
  | .unimplD t => Sys2Proof.Machine.execUnimplD t s
  | .unimplE t => Sys2Proof.Machine.execUnimplE t s
  | .unimplF t => Sys2Proof.Machine.execUnimplF t s

end Sys2Proof.Machine
end

