-- ==== Sys2Proof/Machine/Step.lean ====
section
/-! DEFINITION. One step of the machine: one Execute of the oldest command the caller has issued (00_scope.md R12;
20_memory.md R46), or an idle step when none is (60_exceptions.md R133). -/

namespace Sys2Proof.Machine

/-- One step. -/
def step (s : State) : Host.Outcome State Fault Refusal :=
  match fetch s with
  | some (i, s') => exec i s'
  | none => idle s

/-- s with a word of the opcode table issued as the very next command (log 4). -/
def State.withFetchWord (s : State) (nbits w : Nat) : State := s.issue (tableByte nbits w)

end Sys2Proof.Machine
end

