-- ==== Sys2Proof/Machine/Assembler.lean ====
section
/-! DEFINITION. The assembler text of 30_encoding.md R60: MNEMONIC TARGET, and the source's call form Tag(TARGET).
Text is a list of characters. It carries no semantics (92 D16); no instruction's meaning uses this file. -/

namespace Sys2Proof

/-- The mnemonics of 30_encoding.md R50. -/
def mnemonicNames : List (List Char × Tag) :=
  [(['A', 'D', 'D'], .add), (['A', 'D', 'C'], .adc), (['A', 'D', 'D', 'P', 'A', 'I', 'R'], .addpair),
   (['S', 'U', 'B'], .sub), (['S', 'B', 'C'], .sbc), (['A', 'N', 'D'], .and)]
  ++ [(['O', 'R'], .or), (['X', 'O', 'R'], .xor), (['C', 'P'], .cp), (['I', 'N', 'C'], .inc), (['D', 'E', 'C'], .dec)]

/-- The source's tags as the call form spells them (00_scope.md R11; 30_encoding.md R50, R60). -/
def callNames : List (List Char × Tag) :=
  [(['A', 'd', 'd'], .add), (['A', 'd', 'd', 'C', 'a', 'r', 'r', 'y'], .adc),
   (['A', 'd', 'd', 'P', 'a', 'i', 'r'], .addpair), (['S', 'u', 'b', 't', 'r', 'a', 'c', 't'], .sub),
   (['S', 'u', 'b', 't', 'r', 'a', 'c', 't', 'C', 'a', 'r', 'r', 'y'], .sbc), (['A', 'n', 'd'], .and)]
  ++ [(['O', 'r'], .or), (['X', 'o', 'r'], .xor), (['C', 'o', 'm', 'p', 'a', 'r', 'e'], .cp),
   (['I', 'n', 'c', 'r', 'e', 'm', 'e', 'n', 't'], .inc), (['D', 'e', 'c', 'r', 'e', 'm', 'e', 'n', 't'], .dec)]

/-- The target names of 30_encoding.md R52. -/
def targetNames : List (List Char × OperandTarget) :=
  [(['A'], .reg8 .a), (['B'], .reg8 .b), (['C'], .reg8 .c), (['D'], .reg8 .d), (['E'], .reg8 .e), (['H'], .reg8 .h)]
  ++ [(['L'], .reg8 .l), (['A', 'F'], .pair .af), (['B', 'C'], .pair .bc), (['D', 'E'], .pair .de), (['H', 'L'], .pair .hl)]

/-- "Mnemonics and target names are case-insensitive" (30_encoding.md R60). -/
def upperCase (text : List Char) : List Char := text.map Char.toUpper

/-- The instruction that a tag name and a target name give, where both are known. -/
def assembleWords (tag : Option Tag) (target : List Char) : Option Instr :=
  match tag, targetNames.lookup (upperCase target) with
  | some g, some t => some (g.apply t)
  | _, _ => none

/-- Reads one instruction's text in either form of 30_encoding.md R60. One space stands between mnemonic and target,
and a call's tag is spelled as the source spells it (log 6). -/
def parseText (text : List Char) : Option Instr :=
  let word := text.takeWhile (fun ch => ch != ' ' && ch != '(')
  match text.drop word.length with
  | ' ' :: target => assembleWords (mnemonicNames.lookup (upperCase word)) target
  | '(' :: call => if call.getLast? = some ')' then assembleWords (callNames.lookup word) call.dropLast else none
  | _ => none

/-- The text MNEMONIC TARGET of an instruction whose tag and target both have a name (30_encoding.md R60). -/
def Instr.text? (i : Instr) : Option (List Char) :=
  match mnemonicNames.find? (fun p => p.2 == i.tag), targetNames.find? (fun p => p.2 == i.target) with
  | some m, some t => some (m.1 ++ ' ' :: t.1)
  | _, _ => none

/-- The same instruction in the source's call form (30_encoding.md R60). -/
def Instr.callText? (i : Instr) : Option (List Char) :=
  match callNames.find? (fun p => p.2 == i.tag), targetNames.find? (fun p => p.2 == i.target) with
  | some m, some t => some (m.1 ++ '(' :: t.1 ++ [')'])
  | _, _ => none

end Sys2Proof
end

