-- ==== Sys2Proof/Safety.lean ====
section
/-! DEFINITION. The vocabulary of claims: which register files the block can hold, frames, which instruction may
write and may read what (10_state.md R34), and what a run is. -/

namespace Sys2Proof.Machine

/-- "the flag byte's low 4 bits are always 0" (10_state.md R21), the premise of a start state
(70_reset_and_hazards.md R143). Two such files that read alike are equal data. -/
def RegisterFile.wf (rf : RegisterFile) : Bool := (rf.f &&& 0x0F#8) == 0x00#8

/-- The invariant of the machine: its register file is one the block can hold. -/
def State.inv (s : State) : Bool := s.regs.wf

/-- Every general register but those listed reads as before. F is not among them: it is spoken of on its own. -/
def RegisterFile.SameExcept (written : List Reg8) (before after : RegisterFile) : Prop :=
  ∀ r : Reg8, r ∉ written → after.get8 r = before.get8 r

/-- The next state an outcome holds, if it is one. -/
def nextOf : StepOutcome → Option State
  | .next s => some s
  | .fault _ => none
  | .refused _ => none

/-- The status code an outcome shows on the Execute port (30_encoding.md R59). -/
def statusOf (o : StepOutcome) : Option (BitVec 2) := (nextOf o).map (fun s => s.result.statusCode)

/-- The position of a register among the targets A, B, C, D, E, H, L of 30_encoding.md R52. -/
def registerNumber : Reg8 → Nat
  | .a => 0
  | .b => 1
  | .c => 2
  | .d => 3
  | .e => 4
  | .h => 5
  | .l => 6

/-- The position of a pair among the targets AF, BC, DE, HL of 30_encoding.md R52. -/
def pairNumber : Pair → Nat
  | .af => 0
  | .bc => 1
  | .de => 2
  | .hl => 3

/-- The first-named register of a view, its high byte (20_memory.md R42). -/
def highRegister : Pair → Reg8
  | .af => .a
  | .bc => .b
  | .de => .d
  | .hl => .h

/-- The second-named register of a view, its low byte; AF has F there, which is no register target
(20_memory.md R42). -/
def lowRegister : Pair → Option Reg8
  | .af => none
  | .bc => some .c
  | .de => some .e
  | .hl => some .l

/-- What Execute returns for an instruction, by the table of 30_encoding.md R54 and the precedence of
60_exceptions.md R123. -/
def expectedResult (i : Instr) : ExecResult :=
  if i.tag.family = .noHandler then .unsupportedInstruction i.tag
  else if i.legal then .ok
  else .invalidOperandWidth i.target

/-- The general registers an instruction may write, by the last column of 10_state.md R34. -/
def mayWrite (i : Instr) : List Reg8 :=
  match i with
  | .add _ | .adc _ | .sub _ | .sbc _ | .and _ | .or _ | .xor _ => [.a]
  | .addpair _ => [.h, .l]
  | .inc (.reg8 r) => [r]
  | .dec (.reg8 r) => [r]
  | .inc _ | .dec _ | .cp _ => []
  | .inc16 _ | .dec16 _ | .unimplD _ | .unimplE _ | .unimplF _ => []

/-- The registers behind a target (10_state.md R34, R44). -/
def targetRegisters : OperandTarget → List Reg8
  | .reg8 r => [r]
  | .pair .af => [.a]
  | .pair .bc => [.b, .c]
  | .pair .de => [.d, .e]
  | .pair .hl => [.h, .l]
  | .unassigned _ => []

/-- The general registers an instruction may read, by the middle column of 10_state.md R34. -/
def mayRead (i : Instr) : List Reg8 :=
  match i.tag.family with
  | .accumulator8 => .a :: targetRegisters i.target
  | .pair16 => [.h, .l] ++ targetRegisters i.target
  | .incDec => targetRegisters i.target
  | .noHandler => []

/-- Two register files agree on all an instruction may read: its registers, the Carry flag for INC and DEC, the whole
of F for ADDPAIR AF (10_state.md R34). -/
def AgreeOnReads (i : Instr) (x y : RegisterFile) : Prop :=
  (∀ r ∈ mayRead i, x.get8 r = y.get8 r)
  ∧ (i.tag.family = .incDec → x.getFlags.carry = y.getFlags.carry)
  ∧ (i = .addpair (.pair .af) → x.flagByte = y.flagByte)

/-- t is reached from s by some number of steps. -/
inductive Reaches (s : State) : State → Prop where
  /-- No step. -/
  | start : Reaches s s
  /-- One step more. -/
  | more {t u : State} (run : Reaches s t) (last : step t = .next u) : Reaches s u

/-- A safe run: every state it reaches is one the block can hold, and a next state follows each
(70_reset_and_hazards.md R143, R151). -/
def SafeFrom (s : State) : Prop := ∀ t : State, Reaches s t → t.inv = true ∧ ∃ u : State, step t = .next u

end Sys2Proof.Machine
end

