-- ==== Sys2Proof/Certificates/Slice0/Obligations.lean ====
section
/-! DEFINITION. The statements for the provers. Forms that several statements share stand first, under
Sys2Proof.Claims; each speaks of numbers and of what the ports read, not of the model's own flag functions. -/

namespace Sys2Proof.Claims
open Sys2Proof.Machine

/-- What a register reads, as a number (00_scope.md R8). -/
def num (s : State) (r : Reg8) : Nat := (s.regs.get8 r).toNat

/-- What a view reads, as a number (00_scope.md R8). -/
def pairNum (s : State) (p : Pair) : Nat := (s.regs.getPair p).toNat

/-- t is s after an Execute that returned Ok, wrote no general register outside `written`, left no bit in F[3:0], and
touched no command that still waits. -/
def CompletesWriting (written : List Reg8) (i : Instr) (s t : State) : Prop :=
  exec i s = .next t ∧ t.result = .ok ∧ t.pending = s.pending
  ∧ RegisterFile.SameExcept written s.regs t.regs ∧ t.regs.f &&& 0x0F#8 = 0x00#8

/-- The instruction's seven register forms are the bytes base + 0 .. base + 6, in the order A, B, C, D, E, H, L. -/
def EncodedFrom (base : Nat) (mk : OperandTarget → Instr) : Prop :=
  ∀ r : Reg8, decodeByte (BitVec.ofNat 8 (base + registerNumber r)) = mk (.reg8 r)

/-- Any target but a register gives InvalidOperandWidth with that target, and changes nothing else. -/
def RejectsAllButRegisters (mk : OperandTarget → Instr) : Prop :=
  ∀ (tgt : OperandTarget) (s : State), tgt.isReg8 = false →
    exec (mk tgt) s = .next { s with result := .invalidOperandWidth tgt }

/-- For every register target, A becomes value(A, operand) and the flags flags(A, operand); nothing else changes. -/
def WritesAccumulator (mk : OperandTarget → Instr) (value : Nat → Nat → Nat) (flags : Nat → Nat → FlagState) : Prop :=
  ∀ (r : Reg8) (s : State), ∃ t : State, CompletesWriting [.a] (mk (.reg8 r)) s t
    ∧ num t .a = value (num s .a) (num s r) ∧ t.regs.getFlags = flags (num s .a) (num s r)

/-- The flags of an addition of 8-bit numbers, in the words of 41_alu8_arith.md R85. -/
def sumFlags (a v : Nat) : FlagState :=
  ⟨decide ((a + v) % 256 = 0), false, decide (a % 16 + v % 16 > 15), decide (a + v > 255)⟩

/-- The flags of a subtraction of 8-bit numbers, in the words of 41_alu8_arith.md R82 and R85 ("Z = 1 exactly when
a = v"). -/
def differenceFlags (a v : Nat) : FlagState :=
  ⟨decide (a = v), true, decide (a % 16 < v % 16), decide (a < v)⟩

/-- The flags of an addition of 16-bit numbers, in the words of 44_alu16_pair.md R111. -/
def pairSumFlags (h w : Nat) : FlagState :=
  ⟨decide ((h + w) % 65536 = 0), false, decide (h % 4096 + w % 4096 > 4095), decide (h + w > 65535)⟩

/-- For every register target r, r becomes value(r) and the flags flags(r, Carry before); nothing else changes. -/
def WritesTarget (mk : OperandTarget → Instr) (value : Nat → Nat) (flags : Nat → Bool → FlagState) : Prop :=
  ∀ (r : Reg8) (s : State), ∃ t : State, CompletesWriting [r] (mk (.reg8 r)) s t
    ∧ num t r = value (num s r) ∧ t.regs.getFlags = flags (num s r) s.regs.getFlags.carry

/-- The mnemonic of each implemented tag, spelled from 30_encoding.md R50; a tag without handler has none in R60. -/
def mnemonicSpelling : Tag → String
  | .add => "ADD"
  | .adc => "ADC"
  | .addpair => "ADDPAIR"
  | .sub => "SUB"
  | .sbc => "SBC"
  | .and => "AND"
  | .or => "OR"
  | .xor => "XOR"
  | .cp => "CP"
  | .inc => "INC"
  | .dec => "DEC"
  | .inc16 | .dec16 | .unimplD | .unimplE | .unimplF => ""

/-- The source's tag for each implemented instruction, spelled from 00_scope.md R11. -/
def callSpelling : Tag → String
  | .add => "Add"
  | .adc => "AddCarry"
  | .addpair => "AddPair"
  | .sub => "Subtract"
  | .sbc => "SubtractCarry"
  | .and => "And"
  | .or => "Or"
  | .xor => "Xor"
  | .cp => "Compare"
  | .inc => "Increment"
  | .dec => "Decrement"
  | .inc16 | .dec16 | .unimplD | .unimplE | .unimplF => ""

/-- The name of each target, spelled from 30_encoding.md R52; an unassigned code has none. -/
def targetSpelling : OperandTarget → String
  | .reg8 .a => "A"
  | .reg8 .b => "B"
  | .reg8 .c => "C"
  | .reg8 .d => "D"
  | .reg8 .e => "E"
  | .reg8 .h => "H"
  | .reg8 .l => "L"
  | .pair .af => "AF"
  | .pair .bc => "BC"
  | .pair .de => "DE"
  | .pair .hl => "HL"
  | .unassigned _ => ""

/-- For every target and state, Execute returns UnsupportedInstruction with the tag g and changes nothing else. -/
def IsUnsupported (mk : OperandTarget → Instr) (g : Tag) : Prop :=
  ∀ (tgt : OperandTarget) (s : State), exec (mk tgt) s = .next { s with result := .unsupportedInstruction g }

end Sys2Proof.Claims

open Sys2Proof Sys2Proof.Machine Sys2Proof.Claims

-- ==== step, decode and encode ====

/-- A step executes the instruction that the oldest issued command byte decodes to, in the state without that command;
with none issued the step leaves the state as it is. The list of issued commands is the model's own (log 3). -/
def Obligations.StepExecutesTheOldestCommand : Prop :=
  (∀ (s : State) (i : Instr) (rest : List Byte), decode s.pending = .ok (i, rest) →
    step s = exec i { s with pending := rest })
  ∧ (∀ s : State, s.pending = [] → step s = .next s)

/-- A word of the opcode table that the host places is the very next command executed (log 4, the model's choice). -/
def Obligations.PlacedWordIsExecutedNext : Prop :=
  ∀ (s : State) (w : Nat), w < 256 →
    step (s.withFetchWord 8 w) = exec (decodeByte (BitVec.ofNat 8 w)) s
    ∧ decodeTableWord 8 w = some (decodeByte (BitVec.ofNat 8 w))

/-- The example bytes of 30_encoding.md R55 and bytes of every other op code, written out from R50 to R53. -/
def Obligations.WrittenOutBytesDecode : Prop :=
  [0x01#8, 0x29#8, 0x51#8, 0x31#8, 0x90#8, 0xA6#8].map decodeByte
    = [.add (.reg8 .b), .addpair (.pair .bc), .and (.reg8 .b), .sub (.reg8 .b), .inc (.reg8 .a), .dec (.reg8 .l)]
  ∧ [0x13#8, 0x44#8, 0x65#8, 0x72#8, 0x8B#8].map decodeByte
    = [.adc (.reg8 .d), .sbc (.reg8 .e), .or (.reg8 .h), .xor (.reg8 .c), .cp (.pair .hl)]
  ∧ [0xB9#8, 0xC8#8, 0xD7#8, 0xEC#8, 0xFF#8].map decodeByte
    = [.inc16 (.pair .bc), .dec16 (.pair .af), .unimplD (.unassigned 0x7#4), .unimplE (.unassigned 0xC#4),
       .unimplF (.unassigned 0xF#4)]

/-- Every well-formed instruction is what its own encoding decodes to, whatever bytes follow. -/
def Obligations.EncodedInstructionDecodesToItself : Prop :=
  ∀ (i : Instr) (rest : List Byte), i.wellFormed = true → decode (encode i ++ rest) = .ok (i, rest)

/-- 30_encoding.md R55: cmd = (op << 4) | tgt, so its number is 16 times the op code plus the target code; with the
rule's six examples. -/
def Obligations.CommandByteIsOpThenTarget : Prop :=
  (∀ i : Instr, ∃ cmd : Byte, encode i = [cmd]
    ∧ cmd.toNat = 16 * i.tag.opCode.toNat + i.target.code.toNat
    ∧ opField cmd = i.tag.opCode ∧ tgtField cmd = i.target.code)
  ∧ [Instr.add (.reg8 .b), .addpair (.pair .bc), .and (.reg8 .b), .sub (.reg8 .b), .inc (.reg8 .a), .dec (.reg8 .l)].map
      encodeByte = [0x01#8, 0x29#8, 0x51#8, 0x31#8, 0x90#8, 0xA6#8]

/-- 30_encoding.md R56: every byte decodes, to a well-formed instruction with the byte's own op and tgt, and in any
state 74 bytes execute, 80 are UnsupportedInstruction and 102 are InvalidOperandWidth. -/
def Obligations.DecodingIsTotalWithCounts : Prop :=
  (∀ (cmd : Byte) (rest : List Byte), ∃ i : Instr, decode (cmd :: rest) = .ok (i, rest) ∧ i.wellFormed = true
    ∧ i.tag.opCode.toNat = cmd.toNat / 16 ∧ i.target.code.toNat = cmd.toNat % 16 ∧ encode i = [cmd])
  ∧ (∀ s : State,
      (List.range 256).countP (fun n => statusOf (exec (decodeByte (BitVec.ofNat 8 n)) s) == some 0#2) = 74
      ∧ (List.range 256).countP (fun n => statusOf (exec (decodeByte (BitVec.ofNat 8 n)) s) == some 2#2) = 80
      ∧ (List.range 256).countP (fun n => statusOf (exec (decodeByte (BitVec.ofNat 8 n)) s) == some 1#2) = 102)

/-- 30_encoding.md section 7: "Every one of the 256 bytes selects exactly one row", and it is the row of the decoded
instruction. -/
def Obligations.EachByteSelectsItsOneTableRow : Prop :=
  ∀ (cmd : Byte) (rest : List Byte) (i : Instr), decode (cmd :: rest) = .ok (i, rest) →
    ∃ row ∈ opcodeTable, row.tag = i.tag ∧ row.selects cmd = true
      ∧ ∀ other ∈ opcodeTable, other.selects cmd = true → other = row

/-- 30_encoding.md R60: the rule's eleven examples and its four calls are read as the instructions they spell; each of the
eleven mnemonics with each of the eleven target names is written as R50, R11 and R52 spell it, in both forms, and both are
read back as that instruction, the first also in small letters. The exact spacing and the letter case of a call's tag are
the model's choice (log 6). -/
def Obligations.AssemblerTextIsReadBack : Prop :=
  ["ADD B", "ADC A", "ADDPAIR BC", "SUB C", "SBC L", "AND H", "OR D", "XOR A", "CP E", "INC B", "DEC HL"].map
      (fun text => parseText text.toList)
    = [some (.add (.reg8 .b)), some (.adc (.reg8 .a)), some (.addpair (.pair .bc)), some (.sub (.reg8 .c)),
       some (.sbc (.reg8 .l)), some (.and (.reg8 .h)), some (.or (.reg8 .d)), some (.xor (.reg8 .a)), some (.cp (.reg8 .e)),
       some (.inc (.reg8 .b)), some (.dec (.pair .hl))]
  ∧ ["Add(B)", "AddPair(BC)", "And(B)", "Subtract(B)"].map (fun text => parseText text.toList)
    = [some (.add (.reg8 .b)), some (.addpair (.pair .bc)), some (.and (.reg8 .b)), some (.sub (.reg8 .b))]
  ∧ (∀ (g : Tag) (t : OperandTarget), g.family ≠ .noHandler → (∀ code : Nibble, t ≠ .unassigned code) →
    ∃ plain call : List Char, (g.apply t).text? = some plain ∧ (g.apply t).callText? = some call
      ∧ plain = (mnemonicSpelling g).toList ++ ' ' :: (targetSpelling t).toList
      ∧ call = (callSpelling g).toList ++ '(' :: (targetSpelling t).toList ++ [')']
      ∧ parseText plain = some (g.apply t) ∧ parseText (plain.map Char.toLower) = some (g.apply t)
      ∧ parseText call = some (g.apply t))

-- ==== operand multiplexer, flag codec, ports ====

/-- 40_dispatch.md R70, R71 with 30_encoding.md R52, R53: by target code, ResolveU8 answers for codes 0..6 only and
ResolveU16 for codes 8..B only; each gives the value its port reads, and else the error with the offending target. -/
def Obligations.ResolversAcceptTheirWidthOnly : Prop :=
  ∀ (code : Nibble) (rf : RegisterFile),
    (∀ r : Reg8, code.toNat = registerNumber r → resolveU8 (.ofCode code) rf = .ok (rf.get8 r))
    ∧ (∀ p : Pair, code.toNat = 8 + pairNumber p → resolveU16 (.ofCode code) rf = .ok (rf.getPair p))
    ∧ (7 ≤ code.toNat → resolveU8 (.ofCode code) rf = .error (.invalidOperandWidth (.ofCode code)))
    ∧ ((code.toNat < 8 ∨ 12 ≤ code.toNat) →
        resolveU16 (.ofCode code) rf = .error (.invalidOperandWidth (.ofCode code)))

/-- 10_state.md R24, R25, R26: where each flag stands in the byte, in both directions, and the round-trip laws. -/
def Obligations.FlagCodecPlacesBitsAndRoundTrips : Prop :=
  (∀ f : FlagState, f.encode.toNat
      = 128 * f.zero.toNat + 64 * f.subtraction.toNat + 32 * f.halfCarry.toNat + 16 * f.carry.toNat)
  ∧ (∀ b : Byte, (FlagState.decode b).zero.toNat = b.toNat / 128 % 2
      ∧ (FlagState.decode b).subtraction.toNat = b.toNat / 64 % 2
      ∧ (FlagState.decode b).halfCarry.toNat = b.toNat / 32 % 2
      ∧ (FlagState.decode b).carry.toNat = b.toNat / 16 % 2)
  ∧ (∀ f : FlagState, FlagState.decode f.encode = f ∧ f.encode &&& 0x0F#8 = 0x00#8)
  ∧ (∀ b : Byte, (FlagState.decode b).encode = b &&& 0xF0#8)

/-- 10_state.md R21, R31, R32: F[3:0] reads 0 in every register file; GetFlags after SetFlags(f) is f; SetFlags
overwrites the whole byte, so an earlier SetFlags leaves no trace; and it changes no general register. -/
def Obligations.SetFlagsOverwritesTheWholeByte : Prop :=
  ∀ (rf : RegisterFile) (f g : FlagState),
    rf.flagByte.toNat % 16 = 0
    ∧ (rf.setFlags f).getFlags = f
    ∧ (rf.setFlags f).flagByte = f.encode
    ∧ (rf.setFlags g).setFlags f = rf.setFlags f
    ∧ RegisterFile.SameExcept [] rf (rf.setFlags f)

/-- 10_state.md R29, R30: a view is 256 times its first register plus its second (F for AF); writing a view puts the
high byte in the first and the low byte in the second, AF's low byte losing bits 3..0; no other state changes. -/
def Obligations.PairViewsConcatenateAndSplit : Prop :=
  ∀ (rf : RegisterFile) (v : Word16),
    (rf.getPair .af).toNat = 256 * (rf.get8 .a).toNat + rf.flagByte.toNat
    ∧ (rf.getPair .bc).toNat = 256 * (rf.get8 .b).toNat + (rf.get8 .c).toNat
    ∧ (rf.getPair .de).toNat = 256 * (rf.get8 .d).toNat + (rf.get8 .e).toNat
    ∧ (rf.getPair .hl).toNat = 256 * (rf.get8 .h).toNat + (rf.get8 .l).toNat
    ∧ (∀ p : Pair, p ≠ .af → (rf.setPair p v).getPair p = v ∧ (rf.setPair p v).f = rf.f
        ∧ RegisterFile.SameExcept (targetRegisters (.pair p)) rf (rf.setPair p v))
    ∧ ((rf.setPair .af v).get8 .a).toNat = v.toNat / 256
    ∧ (rf.setPair .af v).f.toNat = v.toNat % 256 - v.toNat % 16
    ∧ RegisterFile.SameExcept [.a] rf (rf.setPair .af v)

/-- 10_state.md R33: a write to a register shows in every view that contains it and in no other; a flag commit shows in
AF only; a write through a view shows in the two registers it names. -/
def Obligations.RegisterWritesShowInTheirViews : Prop :=
  ∀ (rf : RegisterFile) (r : Reg8) (v : Byte) (f : FlagState) (p : Pair) (w : Word16),
    (r = highRegister p → ((rf.set8 r v).getPair p).toNat = 256 * v.toNat + (rf.getPair p).toNat % 256)
    ∧ (lowRegister p = some r → ((rf.set8 r v).getPair p).toNat = (rf.getPair p).toNat / 256 * 256 + v.toNat)
    ∧ (r ≠ highRegister p → lowRegister p ≠ some r → (rf.set8 r v).getPair p = rf.getPair p)
    ∧ (p = .af → ((rf.setFlags f).getPair p).toNat = 256 * (rf.get8 .a).toNat + f.encode.toNat)
    ∧ (p ≠ .af → (rf.setFlags f).getPair p = rf.getPair p)
    ∧ ((rf.setPair p w).get8 (highRegister p)).toNat = w.toNat / 256
    ∧ (lowRegister p = some r → ((rf.setPair p w).get8 r).toNat = w.toNat % 256)
    ∧ (p = .af → (rf.setPair p w).flagByte.toNat = w.toNat % 256 / 16 * 16)

/-- 10_state.md R36: in every state each register of the Snapshot is what Get8 reads of that register, and its flags are
decode(F), what GetFlags reads; the raw F is derivable from it, so two register files the block can hold with equal
snapshots are equal. -/
def Obligations.SnapshotShowsTheWholeRegisterFile : Prop :=
  (∀ s : State, s.snapshot.a = s.regs.get8 .a ∧ s.snapshot.b = s.regs.get8 .b ∧ s.snapshot.c = s.regs.get8 .c
    ∧ s.snapshot.d = s.regs.get8 .d ∧ s.snapshot.e = s.regs.get8 .e ∧ s.snapshot.h = s.regs.get8 .h
    ∧ s.snapshot.l = s.regs.get8 .l ∧ s.snapshot.flags = s.regs.getFlags
    ∧ s.snapshot.flags = FlagState.decode s.regs.flagByte)
  ∧ (∀ s t : State, s.inv = true → t.inv = true →
    (s.snapshot = t.snapshot ↔ s.regs = t.regs) ∧ s.snapshot.flags.encode = s.regs.f)

-- ==== the instructions ====

/-- 41_alu8_arith.md R80, ADD r. -/
def Obligations.AddAddsIntoTheAccumulator : Prop :=
  EncodedFrom 0x00 .add
  ∧ WritesAccumulator .add (fun a v => (a + v) % 256) sumFlags
  ∧ RejectsAllButRegisters .add

/-- 41_alu8_arith.md R81, ADC r: the carry added is the base addition's own; flags are ADD's. -/
def Obligations.AdcAddsItsOwnCarry : Prop :=
  EncodedFrom 0x10 .adc
  ∧ WritesAccumulator .adc (fun a v => (a + v + (if a + v > 255 then 1 else 0)) % 256) sumFlags
  ∧ RejectsAllButRegisters .adc

/-- 41_alu8_arith.md R82, SUB r. -/
def Obligations.SubSubtractsFromTheAccumulator : Prop :=
  EncodedFrom 0x30 .sub
  ∧ WritesAccumulator .sub (fun a v => (a + 256 - v) % 256) differenceFlags
  ∧ RejectsAllButRegisters .sub

/-- 41_alu8_arith.md R83, SBC r: the borrow subtracted is the base subtraction's own; flags are SUB's. -/
def Obligations.SbcSubtractsItsOwnBorrow : Prop :=
  EncodedFrom 0x40 .sbc
  ∧ WritesAccumulator .sbc (fun a v => (a + 256 - v - (if a < v then 1 else 0)) % 256) differenceFlags
  ∧ RejectsAllButRegisters .sbc

/-- 41_alu8_arith.md R84, CP r: SUB's flags, and no general register is written. -/
def Obligations.CpCommitsFlagsOnly : Prop :=
  EncodedFrom 0x80 .cp
  ∧ (∀ (r : Reg8) (s : State), ∃ t : State, CompletesWriting [] (.cp (.reg8 r)) s t
      ∧ t.regs.getFlags = differenceFlags (num s .a) (num s r))
  ∧ RejectsAllButRegisters .cp

/-- 42_alu8_logic.md R90, AND r: H is 1 and C is 0 always. -/
def Obligations.AndMasksTheAccumulator : Prop :=
  EncodedFrom 0x50 .and
  ∧ WritesAccumulator .and (fun a v => a &&& v) (fun a v => ⟨decide (a &&& v = 0), false, true, false⟩)
  ∧ RejectsAllButRegisters .and

/-- 42_alu8_logic.md R91, OR r: N, H and C are 0; Z = 1 only when both operands are 0. -/
def Obligations.OrMergesIntoTheAccumulator : Prop :=
  EncodedFrom 0x60 .or
  ∧ WritesAccumulator .or (fun a v => a ||| v) (fun a v => ⟨decide (a = 0 ∧ v = 0), false, false, false⟩)
  ∧ RejectsAllButRegisters .or

/-- 42_alu8_logic.md R92, XOR r: N, H and C are 0; the result is zero exactly when the operands are equal. -/
def Obligations.XorTogglesTheAccumulator : Prop :=
  EncodedFrom 0x70 .xor
  ∧ WritesAccumulator .xor (fun a v => a ^^^ v) (fun a v => ⟨decide (a = v), false, false, false⟩)
  ∧ RejectsAllButRegisters .xor

/-- 43_incdec.md R100, INC r: Carry is kept, H is 1 exactly when the low nibble was 0xF. -/
def Obligations.IncIncrementsAndKeepsCarry : Prop :=
  EncodedFrom 0x90 .inc
  ∧ WritesTarget .inc (fun x => (x + 1) % 256) (fun x c0 => ⟨decide (x = 255), false, decide (x % 16 = 15), c0⟩)
  ∧ RejectsAllButRegisters .inc

/-- 43_incdec.md R101, DEC r: Carry is kept, H is 1 exactly when the low nibble was 0. -/
def Obligations.DecDecrementsAndKeepsCarry : Prop :=
  EncodedFrom 0xA0 .dec
  ∧ WritesTarget .dec (fun x => (x + 255) % 256) (fun x c0 => ⟨decide (x = 1), true, decide (x % 16 = 0), c0⟩)
  ∧ RejectsAllButRegisters .dec

/-- 44_alu16_pair.md R110, R111, ADDPAIR rr: HL becomes HL plus the pair mod 65536, Z is written, H is the carry out of
bit 11; F is read before the commit (target AF). -/
def Obligations.AddPairAddsIntoHl : Prop :=
  (∀ p : Pair, decodeByte (BitVec.ofNat 8 (0x28 + pairNumber p)) = .addpair (.pair p))
  ∧ (∀ (p : Pair) (s : State), ∃ t : State, CompletesWriting [.h, .l] (.addpair (.pair p)) s t
      ∧ pairNum t .hl = (pairNum s .hl + pairNum s p) % 65536
      ∧ num t .h = pairNum t .hl / 256 ∧ num t .l = pairNum t .hl % 256
      ∧ t.regs.getFlags = pairSumFlags (pairNum s .hl) (pairNum s p))
  ∧ (∀ (tgt : OperandTarget) (s : State), tgt.isPair = false →
      exec (.addpair tgt) s = .next { s with result := .invalidOperandWidth tgt })

/-- 40_dispatch.md R75, 60_exceptions.md R122, R123: the five op codes 0xB..0xF, with every target code and in every
state, return UnsupportedInstruction with their tag, and nothing else changes, a bad target included. -/
def Obligations.UnsupportedTagsOnlyReportThemselves : Prop :=
  IsUnsupported .inc16 .inc16 ∧ IsUnsupported .dec16 .dec16 ∧ IsUnsupported .unimplD .unimplD
  ∧ IsUnsupported .unimplE .unimplE ∧ IsUnsupported .unimplF .unimplF
  ∧ (∀ (cmd : Byte) (s : State), 0xB0 ≤ cmd.toNat →
      ∃ g : Tag, g.opCode.toNat = cmd.toNat / 16
        ∧ exec (decodeByte cmd) s = .next { s with result := .unsupportedInstruction g })

-- ==== laws between instructions ====

/-- 40_dispatch.md R77: a register that is source and destination gives its old value, and ADDPAIR AF reads F as it was
before its own flag commit. -/
def Obligations.SourceAsDestinationGivesItsOldValue : Prop :=
  ∀ s : State,
    (∃ t, CompletesWriting [.a] (.add (.reg8 .a)) s t ∧ num t .a = 2 * num s .a % 256
        ∧ t.regs.getFlags = sumFlags (num s .a) (num s .a))
    ∧ (∃ t, CompletesWriting [.a] (.sub (.reg8 .a)) s t ∧ num t .a = 0 ∧ t.regs.getFlags.zero = true)
    ∧ (∃ t, CompletesWriting [.a] (.xor (.reg8 .a)) s t ∧ num t .a = 0 ∧ t.regs.getFlags.zero = true)
    ∧ (∃ t, CompletesWriting [] (.cp (.reg8 .a)) s t ∧ t.regs.getFlags = ⟨true, true, false, false⟩)
    ∧ (∃ t, CompletesWriting [.h, .l] (.addpair (.pair .hl)) s t ∧ pairNum t .hl = 2 * pairNum s .hl % 65536
        ∧ t.regs.getFlags = pairSumFlags (pairNum s .hl) (pairNum s .hl))
    ∧ (∃ t, CompletesWriting [.h, .l] (.addpair (.pair .af)) s t
        ∧ pairNum t .hl = (pairNum s .hl + 256 * num s .a + s.regs.flagByte.toNat) % 65536
        ∧ t.regs.getFlags = pairSumFlags (pairNum s .hl) (256 * num s .a + s.regs.flagByte.toNat))
    ∧ (∃ t, CompletesWriting [.a] (.inc (.reg8 .a)) s t ∧ num t .a = (num s .a + 1) % 256)
    ∧ (∃ t, CompletesWriting [.a] (.dec (.reg8 .a)) s t ∧ num t .a = (num s .a + 255) % 256)

/-- 41_alu8_arith.md R85: on one state ADC commits ADD's flags, SBC and CP commit SUB's; ADC's and SBC's value differs
from ADD's and SUB's by the Carry just committed; none of it depends on the flags held before. -/
def Obligations.CarryVariantsFollowTheirBaseOperation : Prop :=
  ∀ (r : Reg8) (s : State) (f : FlagState), ∃ tAdd tAdc tSub tSbc tCp : State,
    exec (.add (.reg8 r)) s = .next tAdd ∧ exec (.sub (.reg8 r)) s = .next tSub
    ∧ exec (.adc (.reg8 r)) { s with regs := s.regs.setFlags f } = .next tAdc
    ∧ exec (.sbc (.reg8 r)) { s with regs := s.regs.setFlags f } = .next tSbc
    ∧ exec (.cp (.reg8 r)) { s with regs := s.regs.setFlags f } = .next tCp
    ∧ tAdc.regs.getFlags = tAdd.regs.getFlags ∧ tSbc.regs.getFlags = tSub.regs.getFlags
    ∧ tCp.regs.getFlags = tSub.regs.getFlags ∧ num tCp .a = num s .a
    ∧ num tAdc .a = num tAdd .a + tAdd.regs.getFlags.carry.toNat
    ∧ num tSbc .a + tSub.regs.getFlags.carry.toNat = num tSub .a

/-- 43_incdec.md R102: INC r then DEC r gives r and Carry back, N = 1, and the H and Z of DEC at (x + 1) mod 256; every
other register is as before. -/
def Obligations.IncThenDecRestoresTheRegister : Prop :=
  ∀ (r : Reg8) (s : State), ∃ t u : State,
    exec (.inc (.reg8 r)) s = .next t ∧ exec (.dec (.reg8 r)) t = .next u
    ∧ num u r = num s r ∧ RegisterFile.SameExcept [] s.regs u.regs
    ∧ u.regs.getFlags.carry = s.regs.getFlags.carry ∧ u.regs.getFlags.subtraction = true
    ∧ u.regs.getFlags.halfCarry = decide ((num s r + 1) % 256 % 16 = 0)
    ∧ u.regs.getFlags.zero = decide ((num s r + 1) % 256 = 1)

-- ==== whole-machine rules ====

/-- 30_encoding.md R54, R59, 60_exceptions.md R120 to R123: every instruction in every state ends in one next state
whose result is Ok, InvalidOperandWidth with the target, or UnsupportedInstruction with the tag, as the table of legal
pairs says; its code is 0, 1 or 2 accordingly, and no result has code 3. -/
def Obligations.EveryExecuteReturnsItsOneStatus : Prop :=
  (∀ (i : Instr) (s : State), ∃ t : State, exec i s = .next t ∧ t.pending = s.pending ∧ t.result = expectedResult i
    ∧ (t.result.statusCode.toNat = 0 ↔ i.legal = true)
    ∧ (t.result.statusCode.toNat = 1 ↔ i.legal = false ∧ i.tag.family ≠ .noHandler)
    ∧ (t.result.statusCode.toNat = 2 ↔ i.tag.family = .noHandler))
  ∧ (∀ x : ExecResult, x.statusCode ≠ 3#2)

/-- 60_exceptions.md R124 (and 40_dispatch.md R78): a failed Execute leaves A..L and F exactly as they were. -/
def Obligations.FailedExecuteChangesNoRegister : Prop :=
  ∀ (i : Instr) (s t : State), exec i s = .next t → t.result ≠ .ok → t.regs = s.regs ∧ t.pending = s.pending

/-- 60_exceptions.md R126: no earlier result influences an Execute, and issuing a failing command again gives the same
error and again changes nothing. -/
def Obligations.EarlierErrorsHaveNoInfluence : Prop :=
  (∀ (i : Instr) (s : State) (x : ExecResult), exec i { s with result := x } = exec i s)
  ∧ (∀ (i : Instr) (s t : State), exec i s = .next t → t.result ≠ .ok → exec i t = .next t)

/-- 40_dispatch.md R74, 10_state.md R34: a successful Execute overwrites all four flags. Outside INC, DEC and ADDPAIR AF
its whole next state is the same whatever F was; INC and DEC look at the old Carry alone. -/
def Obligations.SuccessfulExecuteOverwritesAllFlags : Prop :=
  ∀ (i : Instr) (s : State) (f : FlagState), i.legal = true →
    (i.tag.family ≠ .incDec → i ≠ .addpair (.pair .af) →
      exec i { s with regs := s.regs.setFlags f } = exec i s)
    ∧ (i.tag.family = .incDec → f.carry = s.regs.getFlags.carry →
      exec i { s with regs := s.regs.setFlags f } = exec i s)

/-- 10_state.md R34, the column of writers: an instruction changes no general register but those the table gives it. -/
def Obligations.ExecuteWritesOnlyItsRegisters : Prop :=
  ∀ (i : Instr) (s t : State), exec i s = .next t → RegisterFile.SameExcept (mayWrite i) s.regs t.regs

/-- 10_state.md R34, the column of readers, and R37: two states that agree on what an instruction may read get the same
result, the same values in the registers it writes, and, when it succeeds, the same flags. -/
def Obligations.ExecuteReadsOnlyItsRegisters : Prop :=
  ∀ (i : Instr) (s s' : State), AgreeOnReads i s.regs s'.regs →
    ∃ t t' : State, exec i s = .next t ∧ exec i s' = .next t' ∧ t.result = t'.result
      ∧ (t.result = .ok → (∀ r ∈ mayWrite i, t.regs.get8 r = t'.regs.get8 r) ∧ t.regs.getFlags = t'.regs.getFlags)

/-- 10_state.md R37, 70_reset_and_hazards.md R149: there is no hidden state. Two states with equal snapshots and equal
commands still to come show equal snapshots after any number of steps. -/
def Obligations.SnapshotDeterminesEveryRun : Prop :=
  ∀ (k : Nat) (s s' : State), s.snapshot = s'.snapshot → s.pending = s'.pending →
    ∃ t t' : State, Host.Core.run core k s = .next t ∧ Host.Core.run core k s' = .next t'
      ∧ t.snapshot = t'.snapshot ∧ t.pending = t'.pending

/-- 10_state.md R21: every step keeps F[3:0] = 0, from every state that has it, reachable or not. -/
def Obligations.EveryStepKeepsTheLowNibbleOfFZero : Prop :=
  ∀ s t : State, s.inv = true → step s = .next t → t.inv = true

/-- 10_state.md R38, 70_reset_and_hazards.md R140: at creation every register and flag is 0, every view reads 0x0000,
and the invariant holds. -/
def Obligations.CreationLeavesAllRegistersZero : Prop :=
  (∀ r : Reg8, State.reset.regs.get8 r = 0x00#8) ∧ (∀ p : Pair, State.reset.regs.getPair p = 0x0000#16)
  ∧ State.reset.regs.f = 0x00#8 ∧ State.reset.regs.getFlags = ⟨false, false, false, false⟩
  ∧ State.reset.inv = true

/-- 70_reset_and_hazards.md R151, 40_dispatch.md R76: no step stalls, faults or is refused; k steps take exactly the k
oldest commands. The list of issued commands is the model's own (log 3). -/
def Obligations.EveryRunCompletes : Prop :=
  ∀ (k : Nat) (s : State), ∃ t : State, Host.Core.run core k s = .next t ∧ t.pending = s.pending.drop k

/-- 20_memory.md R46: Executes take effect one at a time in issue order; commands issued later have no effect on those
before them. Running xs and then ys is running xs ++ ys (the list of issued commands is the model's own, log 3). -/
def Obligations.CommandsTakeEffectInIssueOrder : Prop :=
  ∀ (xs ys : List Byte) (s t : State),
    Host.Core.run core xs.length { s with pending := xs } = .next t →
    Host.Core.run core xs.length { s with pending := xs ++ ys } = .next { t with pending := ys }
    ∧ ∀ k : Nat, Host.Core.run core (xs.length + k) { s with pending := xs ++ ys }
        = Host.Core.run core k { t with pending := ys }

/-- 70_reset_and_hazards.md R142, R143, R151: from every start state the block can hold, and so from creation with any
commands issued, every run is safe: it stays among those states and never stops. -/
def Obligations.EveryStartStateIsSafe : Prop :=
  (∀ s : State, s.inv = true → SafeFrom s) ∧ (∀ cmds : List Byte, SafeFrom { State.reset with pending := cmds })
end

