-- ==== Sys2Proof/Laws/Bits.lean ====
section
/-! SUPPORT. The bit-field helpers as arithmetic on numbers: one lemma per helper, so that a claim about numbers never
unfolds a shift or a mask. -/

namespace Sys2Proof

theorem opField_toNat (cmd : Byte) : (opField cmd).toNat = cmd.toNat / 16 := by
  have := cmd.isLt
  simp only [opField, BitVec.extractLsb'_toNat, Nat.shiftRight_eq_div_pow]
  omega

theorem tgtField_toNat (cmd : Byte) : (tgtField cmd).toNat = cmd.toNat % 16 := by
  simp only [tgtField, BitVec.extractLsb'_toNat, Nat.shiftRight_zero]

theorem commandByte_toNat (op tgt : Nibble) : (commandByte op tgt).toNat = 16 * op.toNat + tgt.toNat := by
  have ho := op.isLt
  have ht := tgt.isLt
  have hs : (op.toNat % 2 ^ 8) <<< 4 % 2 ^ 8 = op.toNat <<< 4 := by
    rw [Nat.shiftLeft_eq]; omega
  simp only [commandByte, BitVec.toNat_or, BitVec.toNat_shiftLeft, BitVec.toNat_setWidth, hs]
  rw [Nat.mod_eq_of_lt (by omega), ← Nat.shiftLeft_add_eq_or_of_lt ht, Nat.shiftLeft_eq]
  omega

@[simp] theorem opField_commandByte (op tgt : Nibble) : opField (commandByte op tgt) = op := by
  have ht := tgt.isLt
  apply BitVec.eq_of_toNat_eq
  rw [opField_toNat, commandByte_toNat]
  omega

@[simp] theorem tgtField_commandByte (op tgt : Nibble) : tgtField (commandByte op tgt) = tgt := by
  have ht := tgt.isLt
  apply BitVec.eq_of_toNat_eq
  rw [tgtField_toNat, commandByte_toNat]
  omega

@[simp] theorem ofOpCode_opCode (g : Tag) : Tag.ofOpCode g.opCode = g := by cases g <;> rfl

@[simp] theorem tag_apply (g : Tag) (t : OperandTarget) : (g.apply t).tag = g := by cases g <;> rfl

@[simp] theorem target_apply (g : Tag) (t : OperandTarget) : (g.apply t).target = t := by cases g <;> rfl

@[simp] theorem apply_tag_target (i : Instr) : i.tag.apply i.target = i := by cases i <;> rfl

namespace Machine

theorem lowNibble_eq_mod (x : Byte) : lowNibble x = x.toNat % 16 := by
  simp only [lowNibble, BitVec.toNat_and]
  exact Nat.and_two_pow_sub_one_eq_mod x.toNat 4

theorem lowTwelve_eq_mod (x : Word16) : lowTwelve x = x.toNat % 4096 := by
  simp only [lowTwelve, BitVec.toNat_and]
  exact Nat.and_two_pow_sub_one_eq_mod x.toNat 12

theorem concat_toNat (h l : Byte) : (concat h l).toNat = 256 * h.toNat + l.toNat := by
  have hh := h.isLt
  have hl := l.isLt
  have hs : (h.toNat % 2 ^ 16) <<< 8 % 2 ^ 16 = h.toNat <<< 8 := by
    rw [Nat.shiftLeft_eq]; omega
  simp only [concat, BitVec.toNat_or, BitVec.toNat_shiftLeft, BitVec.toNat_setWidth, hs]
  rw [Nat.mod_eq_of_lt (by omega), ← Nat.shiftLeft_add_eq_or_of_lt hl, Nat.shiftLeft_eq]
  omega

theorem highByte_toNat (v : Word16) : (highByte v).toNat = v.toNat / 256 := by
  have := v.isLt
  simp only [highByte, BitVec.extractLsb'_toNat, Nat.shiftRight_eq_div_pow]
  omega

theorem lowByte_toNat (v : Word16) : (lowByte v).toNat = v.toNat % 256 := by
  simp only [lowByte, BitVec.extractLsb'_toNat, Nat.shiftRight_zero]

theorem concat_high_low (v : Word16) : concat (highByte v) (lowByte v) = v := by
  apply BitVec.eq_of_toNat_eq
  rw [concat_toNat, highByte_toNat, lowByte_toNat]
  omega

theorem encode_lowNibble_zero (f : FlagState) : f.encode &&& 0x0F#8 = 0x00#8 := by
  obtain ⟨z, n, h, c⟩ := f
  cases z <;> cases n <;> cases h <;> cases c <;> rfl

end Machine

end Sys2Proof
end

