-- ==== Sys2Proof/Laws/State.lean ====
section
/-! SUPPORT. What each update of the state leaves in each field, so that no later proof unfolds a record update. -/

namespace Sys2Proof.Machine

@[simp] theorem set8_f (rf : RegisterFile) (r : Reg8) (v : Byte) : (rf.set8 r v).f = rf.f := by
  cases r <;> rfl

@[simp] theorem get8_set8_same (rf : RegisterFile) (r : Reg8) (v : Byte) : (rf.set8 r v).get8 r = v := by
  cases r <;> rfl

theorem get8_set8 (rf : RegisterFile) (r q : Reg8) (v : Byte) :
    (rf.set8 r v).get8 q = if q = r then v else rf.get8 q := by
  cases r <;> cases q <;> rfl

@[simp] theorem get8_set8_of_ne (rf : RegisterFile) {r q : Reg8} (v : Byte) (h : q ≠ r) :
    (rf.set8 r v).get8 q = rf.get8 q := by
  rw [get8_set8, if_neg h]

@[simp] theorem setFlags_f (rf : RegisterFile) (f : FlagState) : (rf.setFlags f).f = f.encode := rfl

@[simp] theorem get8_setFlags (rf : RegisterFile) (f : FlagState) (r : Reg8) : (rf.setFlags f).get8 r = rf.get8 r := by
  cases r <;> rfl

@[simp] theorem flagByte_set8 (rf : RegisterFile) (r : Reg8) (v : Byte) : (rf.set8 r v).flagByte = rf.flagByte := by
  cases r <;> rfl

@[simp] theorem getFlags_set8 (rf : RegisterFile) (r : Reg8) (v : Byte) : (rf.set8 r v).getFlags = rf.getFlags := by
  cases r <;> rfl

@[simp] theorem issue_regs (s : State) (cmd : Byte) : (s.issue cmd).regs = s.regs := rfl
@[simp] theorem issue_result (s : State) (cmd : Byte) : (s.issue cmd).result = s.result := rfl
@[simp] theorem issue_pending (s : State) (cmd : Byte) : (s.issue cmd).pending = cmd :: s.pending := rfl

@[simp] theorem reset_regs : State.reset.regs = RegisterFile.created := rfl
@[simp] theorem reset_pending : State.reset.pending = [] := rfl

/-- Two register files with the same seven registers and the same F storage are the same. -/
theorem RegisterFile.ext_ports {x y : RegisterFile} (hr : ∀ r, x.get8 r = y.get8 r) (hf : x.f = y.f) : x = y := by
  obtain ⟨a, b, c, d, e, h, l, f⟩ := x
  obtain ⟨a', b', c', d', e', h', l', f'⟩ := y
  have ha := hr .a
  have hb := hr .b
  have hc := hr .c
  have hd := hr .d
  have he := hr .e
  have hh := hr .h
  have hl := hr .l
  simp only [RegisterFile.get8] at ha hb hc hd he hh hl hf
  subst ha hb hc hd he hh hl hf
  rfl

end Sys2Proof.Machine
end

