-- ==== Sys2Proof/Laws/Execute.lean ====
section
/-! SUPPORT. What each shared operation of Execute can do: one spec lemma per operation, and one for exec as a whole. -/

namespace Sys2Proof.Machine

/-- Everything the 8-bit accumulator flow can do. -/
theorem executeAccumulator_spec (alu : Byte → Byte → Byte × FlagState) (t : OperandTarget) (s : State) :
    (∃ r, t = .reg8 r ∧ executeAccumulator alu t s = .next { s with
        regs := (s.regs.set8 .a (alu (s.regs.get8 .a) (s.regs.get8 r)).1).setFlags (alu (s.regs.get8 .a) (s.regs.get8 r)).2
        result := .ok })
    ∨ (t.isReg8 = false ∧ executeAccumulator alu t s = .next { s with result := .invalidOperandWidth t }) := by
  cases t with
  | reg8 r => exact .inl ⟨r, rfl, rfl⟩
  | pair p => exact .inr ⟨rfl, rfl⟩
  | unassigned code => exact .inr ⟨rfl, rfl⟩

/-- Everything CP's flow can do. -/
theorem executeCompare_spec (alu : Byte → Byte → Byte × FlagState) (t : OperandTarget) (s : State) :
    (∃ r, t = .reg8 r ∧ executeCompare alu t s = .next { s with
        regs := s.regs.setFlags (alu (s.regs.get8 .a) (s.regs.get8 r)).2
        result := .ok })
    ∨ (t.isReg8 = false ∧ executeCompare alu t s = .next { s with result := .invalidOperandWidth t }) := by
  cases t with
  | reg8 r => exact .inl ⟨r, rfl, rfl⟩
  | pair p => exact .inr ⟨rfl, rfl⟩
  | unassigned code => exact .inr ⟨rfl, rfl⟩

/-- Everything the 16-bit pair flow can do. -/
theorem executePair_spec (alu : Word16 → Word16 → Word16 × FlagState) (t : OperandTarget) (s : State) :
    (∃ p, t = .pair p ∧ executePair alu t s = .next { s with
        regs := (s.regs.setPair .hl (alu (s.regs.getPair .hl) (s.regs.getPair p)).1).setFlags
          (alu (s.regs.getPair .hl) (s.regs.getPair p)).2
        result := .ok })
    ∨ (t.isPair = false ∧ executePair alu t s = .next { s with result := .invalidOperandWidth t }) := by
  cases t with
  | reg8 r => exact .inr ⟨rfl, rfl⟩
  | pair p => exact .inl ⟨p, rfl, rfl⟩
  | unassigned code => exact .inr ⟨rfl, rfl⟩

/-- Everything the increment and decrement flow can do. -/
theorem executeIncDec_spec (alu : Byte → Bool → Byte × FlagState) (t : OperandTarget) (s : State) :
    (∃ r, t = .reg8 r ∧ executeIncDec alu t s = .next { s with
        regs := (s.regs.set8 r (alu (s.regs.get8 r) s.regs.getFlags.carry).1).setFlags
          (alu (s.regs.get8 r) s.regs.getFlags.carry).2
        result := .ok })
    ∨ (t.isReg8 = false ∧ executeIncDec alu t s = .next { s with result := .invalidOperandWidth t }) := by
  cases t with
  | reg8 r => exact .inl ⟨r, rfl, rfl⟩
  | pair p => exact .inr ⟨rfl, rfl⟩
  | unassigned code => exact .inr ⟨rfl, rfl⟩

/-- Everything the flow of a tag without handler can do. -/
theorem executeUnsupported_spec (g : Tag) (s : State) :
    executeUnsupported g s = .next { s with result := .unsupportedInstruction g } := rfl

/-- Everything one Execute can do: with a legal target it commits a register file whose flags it has just overwritten
and returns Ok; else it returns its error and changes nothing. -/
theorem exec_spec (i : Instr) (s : State) :
    (i.legal = true ∧ ∃ rf f, exec i s = .next { s with regs := RegisterFile.setFlags rf f, result := .ok })
    ∨ (i.legal = false ∧ exec i s = .next { s with result := expectedResult i }) := by
  cases i <;> rename_i t <;> cases t <;>
    first
    | exact .inl ⟨rfl, _, _, rfl⟩
    | exact .inr ⟨rfl, rfl⟩

/-- Taking the next command, when one is issued. -/
theorem fetch_of_pending {s : State} {cmd : Byte} {rest : List Byte} (h : s.pending = cmd :: rest) :
    fetch s = some (decodeByte cmd, { s with pending := rest }) := by
  simp only [fetch, h, decode]

/-- Taking the next command, when none is issued. -/
theorem fetch_of_nothing {s : State} (h : s.pending = []) : fetch s = none := by
  simp only [fetch, h, decode]

end Sys2Proof.Machine
end

