-- ==== Sys2Proof/Laws/PerInstr.lean ====
section
/-! SUPPORT. Facts made per instruction, one lemma per constructor of Instr. Family TableRow: the encoded byte of an
instruction selects the opcode table's row of its tag (30_encoding.md section 7). -/

namespace Sys2Proof.Laws.TableRow

/-- The encoded byte of i selects a row of the table that has i's tag. -/
def Statement (i : Instr) : Prop :=
  ∃ row ∈ opcodeTable, row.tag = i.tag ∧ row.selects (encodeByte i) = true

/-- The upper four bits of a command byte are its op code, whatever the target code. -/
theorem commandByte_and_mask : ∀ op tgt : Nibble, commandByte op tgt &&& 0xF0#8 = commandByte op 0#4 := by
  decide

/-- A row whose pattern is an op code's is selected by every byte with that op code. -/
theorem selects_commandByte (row : OpcodeRow) (op tgt : Nibble) (hm : row.mask = 0xF0#8)
    (hp : row.pattern = commandByte op 0#4) : row.selects (commandByte op tgt) = true := by
  simp only [OpcodeRow.selects, hm, hp, commandByte_and_mask, beq_self_eq_true]

theorem add (t : OperandTarget) : Statement (.add t) :=
  ⟨⟨.add, 0x00#8, 0xF0#8⟩, by decide, rfl, selects_commandByte _ 0x0#4 t.code rfl rfl⟩

theorem adc (t : OperandTarget) : Statement (.adc t) :=
  ⟨⟨.adc, 0x10#8, 0xF0#8⟩, by decide, rfl, selects_commandByte _ 0x1#4 t.code rfl rfl⟩

theorem addpair (t : OperandTarget) : Statement (.addpair t) :=
  ⟨⟨.addpair, 0x20#8, 0xF0#8⟩, by decide, rfl, selects_commandByte _ 0x2#4 t.code rfl rfl⟩

theorem sub (t : OperandTarget) : Statement (.sub t) :=
  ⟨⟨.sub, 0x30#8, 0xF0#8⟩, by decide, rfl, selects_commandByte _ 0x3#4 t.code rfl rfl⟩

theorem sbc (t : OperandTarget) : Statement (.sbc t) :=
  ⟨⟨.sbc, 0x40#8, 0xF0#8⟩, by decide, rfl, selects_commandByte _ 0x4#4 t.code rfl rfl⟩

theorem and (t : OperandTarget) : Statement (.and t) :=
  ⟨⟨.and, 0x50#8, 0xF0#8⟩, by decide, rfl, selects_commandByte _ 0x5#4 t.code rfl rfl⟩

theorem or (t : OperandTarget) : Statement (.or t) :=
  ⟨⟨.or, 0x60#8, 0xF0#8⟩, by decide, rfl, selects_commandByte _ 0x6#4 t.code rfl rfl⟩

theorem xor (t : OperandTarget) : Statement (.xor t) :=
  ⟨⟨.xor, 0x70#8, 0xF0#8⟩, by decide, rfl, selects_commandByte _ 0x7#4 t.code rfl rfl⟩

theorem cp (t : OperandTarget) : Statement (.cp t) :=
  ⟨⟨.cp, 0x80#8, 0xF0#8⟩, by decide, rfl, selects_commandByte _ 0x8#4 t.code rfl rfl⟩

theorem inc (t : OperandTarget) : Statement (.inc t) :=
  ⟨⟨.inc, 0x90#8, 0xF0#8⟩, by decide, rfl, selects_commandByte _ 0x9#4 t.code rfl rfl⟩

theorem dec (t : OperandTarget) : Statement (.dec t) :=
  ⟨⟨.dec, 0xA0#8, 0xF0#8⟩, by decide, rfl, selects_commandByte _ 0xA#4 t.code rfl rfl⟩

theorem inc16 (t : OperandTarget) : Statement (.inc16 t) :=
  ⟨⟨.inc16, 0xB0#8, 0xF0#8⟩, by decide, rfl, selects_commandByte _ 0xB#4 t.code rfl rfl⟩

theorem dec16 (t : OperandTarget) : Statement (.dec16 t) :=
  ⟨⟨.dec16, 0xC0#8, 0xF0#8⟩, by decide, rfl, selects_commandByte _ 0xC#4 t.code rfl rfl⟩

theorem unimplD (t : OperandTarget) : Statement (.unimplD t) :=
  ⟨⟨.unimplD, 0xD0#8, 0xF0#8⟩, by decide, rfl, selects_commandByte _ 0xD#4 t.code rfl rfl⟩

theorem unimplE (t : OperandTarget) : Statement (.unimplE t) :=
  ⟨⟨.unimplE, 0xE0#8, 0xF0#8⟩, by decide, rfl, selects_commandByte _ 0xE#4 t.code rfl rfl⟩

theorem unimplF (t : OperandTarget) : Statement (.unimplF t) :=
  ⟨⟨.unimplF, 0xF0#8, 0xF0#8⟩, by decide, rfl, selects_commandByte _ 0xF#4 t.code rfl rfl⟩

end Sys2Proof.Laws.TableRow
end

