-- ==== Sys2Proof/Laws/Runs.lean ====
section
/-! SUPPORT. The one induction over runs: what holds at the start and is kept by every step holds along the run. -/

namespace Sys2Proof.Machine

/-- The induction over runs, packaged once. -/
theorem Reaches.keeps {P : State → Prop} {s t : State} (hs : P s)
    (hstep : ∀ u v, P u → step u = .next v → P v) (h : Reaches s t) : P t := by
  induction h with
  | start => exact hs
  | more _ last ih => exact hstep _ _ ih last

theorem core_run_zero (s : State) : Host.Core.run core 0 s = .next s := rfl

/-- One step of a run, when that step answers a next state. -/
theorem core_run_succ {s t : State} (h : step s = .next t) (k : Nat) :
    Host.Core.run core (k + 1) s = Host.Core.run core k t := by
  have h' : core.step s = .next t := h
  simp only [Host.Core.run, h']

end Sys2Proof.Machine
end

