-- ==== Sys2Proof/Tests/Slice0.lean ====
section
/-! SUPPORT. The model's own tests. Expected results are those of spec/95_test_vectors.md (table or program named at each
test), of the rules' own worked examples, or bytes written out from 30_encoding.md R50 to R55. The last section gives
each hypothesis of a statement a concrete witness. -/

namespace Sys2Proof.Tests
open Sys2Proof.Machine

/-- A state with the eight bytes A B C D E H L F and one issued command. -/
def st (a b c d e h l f cmd : Byte) : State := { regs := ⟨a, b, c, d, e, h, l, f⟩, result := .ok, pending := [cmd] }

/-- After one step: the bytes A B C D E H L F, the status code, and how many commands still wait. -/
def after (s : State) : Option (List Byte × BitVec 2 × Nat) :=
  (nextOf (step s)).map (fun t =>
    ([t.regs.a, t.regs.b, t.regs.c, t.regs.d, t.regs.e, t.regs.h, t.regs.l, t.regs.f],
      t.result.statusCode, t.pending.length))

-- ==== well-formedness, each check with terms it refuses and terms it accepts ====

theorem test_wellFormed_refuses_a_code_that_names_a_register : (Instr.add (.unassigned 0x3#4)).wellFormed = false := by decide
theorem test_wellFormed_refuses_codes_around_the_gaps :
    ([0x0#4, 0x6#4, 0x8#4, 0xB#4].map (fun code => (Instr.xor (.unassigned code)).wellFormed)) = [false, false, false, false] := by
  decide
theorem test_wellFormed_accepts_the_unassigned_codes :
    ([0x7#4, 0xC#4, 0xD#4, 0xE#4, 0xF#4].map (fun code => (Instr.cp (.unassigned code)).wellFormed))
      = [true, true, true, true, true] := by decide
theorem test_wellFormed_accepts_a_wrong_width : (Instr.dec (.pair .hl)).wellFormed = true := by decide
theorem test_legal_by_family :
    [(Instr.add (.reg8 .l)).legal, (Instr.add (.pair .bc)).legal, (Instr.inc (.reg8 .a)).legal, (Instr.inc (.pair .hl)).legal,
      (Instr.addpair (.pair .af)).legal, (Instr.addpair (.reg8 .a)).legal, (Instr.inc16 (.pair .bc)).legal]
    = [true, false, true, false, true, false, false] := by decide

-- ==== decoding, bytes written out from R50 to R55 ====

theorem test_decode_accumulator_bytes :
    [0b00000001#8, 0b00010000#8, 0b00110001#8, 0b01000110#8, 0b10000100#8].map decodeByte
      = [.add (.reg8 .b), .adc (.reg8 .a), .sub (.reg8 .b), .sbc (.reg8 .l), .cp (.reg8 .e)] := by decide
theorem test_decode_logic_bytes :
    [0b01010101#8, 0b01100011#8, 0b01110010#8].map decodeByte
      = [.and (.reg8 .h), .or (.reg8 .d), .xor (.reg8 .c)] := by decide
theorem test_decode_pair_bytes :
    [0b00101000#8, 0b00101001#8, 0b00101010#8, 0b00101011#8].map decodeByte
      = [.addpair (.pair .af), .addpair (.pair .bc), .addpair (.pair .de), .addpair (.pair .hl)] := by decide
theorem test_decode_incdec_bytes :
    [0b10010000#8, 0b10100110#8, 0b10011011#8, 0b10010111#8].map decodeByte
      = [.inc (.reg8 .a), .dec (.reg8 .l), .inc (.pair .hl), .inc (.unassigned 0x7#4)] := by decide
theorem test_decode_unsupported_bytes :
    [0b10111001#8, 0b11001001#8, 0b11010000#8, 0b11100001#8, 0b11110111#8].map decodeByte
      = [.inc16 (.pair .bc), .dec16 (.pair .bc), .unimplD (.reg8 .a), .unimplE (.reg8 .b), .unimplF (.unassigned 0x7#4)] := by
  decide
theorem test_decode_nothing_is_rejected_by_name : decode [] = .error .noCommand := by decide
theorem test_decodeTableWord_reads_one_byte : decodeTableWord 8 0xA6 = some (.dec (.reg8 .l)) := by decide
theorem test_table_order : opcodeTable.map (fun row => row.pattern.toNat / 16) = List.range 16 := by decide

-- ==== assembler text (R60) ====

theorem test_parse_examples_of_the_rule :
    ["ADD B", "ADC A", "SUB C", "SBC L", "AND H", "OR D", "XOR A", "CP E", "INC B"].map (fun text => parseText text.toList)
      = [some (.add (.reg8 .b)), some (.adc (.reg8 .a)), some (.sub (.reg8 .c)), some (.sbc (.reg8 .l)),
         some (.and (.reg8 .h)), some (.or (.reg8 .d)), some (.xor (.reg8 .a)), some (.cp (.reg8 .e)),
         some (.inc (.reg8 .b))] := by decide
theorem test_parse_call_addpair :
    parseText ['A', 'd', 'd', 'P', 'a', 'i', 'r', '(', 'B', 'C', ')'] = some (.addpair (.pair .bc)) := by decide
theorem test_parse_small_letters : parseText ['d', 'e', 'c', ' ', 'h', 'l'] = some (.dec (.pair .hl)) := by decide
theorem test_parse_refuses_an_unknown_target : parseText ['A', 'D', 'D', ' ', 'F'] = none := by decide

-- ==== flag codec and ports (95 table 2.12) ====

theorem test_encode_flags :
    [FlagState.encode ⟨true, false, false, false⟩, FlagState.encode ⟨false, true, false, false⟩,
      FlagState.encode ⟨false, false, true, false⟩, FlagState.encode ⟨false, false, false, true⟩,
      FlagState.encode ⟨true, false, true, true⟩] = [0x80#8, 0x40#8, 0x20#8, 0x10#8, 0xB0#8] := by decide
theorem test_decode_flags_ignores_the_low_nibble :
    [FlagState.decode 0x70#8, FlagState.decode 0xC0#8, FlagState.decode 0x5F#8]
      = [⟨false, true, true, true⟩, ⟨true, true, false, false⟩, ⟨false, true, false, true⟩] := by decide
theorem test_getPair_af_is_a_then_f : (RegisterFile.mk 0x12 0 0 0 0 0 0 0xB0).getPair .af = 0x12B0#16 := by decide
theorem test_setPair_af_drops_the_low_nibble :
    RegisterFile.created.setPair .af 0x12FF#16 = ⟨0x12, 0, 0, 0, 0, 0, 0, 0xF0⟩ := by decide
theorem test_setPair_bc : RegisterFile.created.setPair .bc 0xBEEF#16 = ⟨0, 0xBE, 0xEF, 0, 0, 0, 0, 0⟩ := by decide
theorem test_snapshot_keeps_each_register_apart :
    (st 0x01 0x02 0x03 0x04 0x05 0x06 0x07 0x90 0).snapshot
      = ⟨0x01, 0x02, 0x03, 0x04, 0x05, 0x06, 0x07, ⟨true, false, false, true⟩⟩ := by decide
theorem test_snapshot :
    (st 0x04 0x05 0x05 0 0 0 0 0x30 0).snapshot = ⟨0x04, 0x05, 0x05, 0, 0, 0, 0, ⟨false, false, true, true⟩⟩ := by decide

-- ==== one step each (95 tables 2.1 to 2.11) ====

theorem test_add_wraps_to_zero : after (st 0xFF 0x01 0 0 0 0 0 0 0x01) = some ([0x00, 0x01, 0, 0, 0, 0, 0, 0xB0], 0, 0) := by decide
theorem test_add_a_doubles : after (st 0x88 0 0 0 0 0 0 0 0x00) = some ([0x10, 0, 0, 0, 0, 0, 0, 0x30], 0, 0) := by decide
theorem test_adc_adds_its_own_carry_and_keeps_z :
    after (st 0x80 0x80 0 0 0 0 0 0 0x11) = some ([0x01, 0x80, 0, 0, 0, 0, 0, 0x90], 0, 0) := by decide
theorem test_adc_ignores_the_prior_carry :
    after (st 0x01 0x01 0 0 0 0 0 0x10 0x11) = some ([0x02, 0x01, 0, 0, 0, 0, 0, 0x00], 0, 0) := by decide
theorem test_sub_borrow_without_half_borrow :
    after (st 0x3E 0x40 0 0 0 0 0 0 0x31) = some ([0xFE, 0x40, 0, 0, 0, 0, 0, 0x50], 0, 0) := by decide
theorem test_sub_source_scenario :
    after (st 0x08 0x0A 0 0 0 0 0 0 0x31) = some ([0xFE, 0x0A, 0, 0, 0, 0, 0, 0x70], 0, 0) := by decide
theorem test_sbc_zero_result_without_z :
    after (st 0 0xFF 0 0 0 0 0 0 0x41) = some ([0x00, 0xFF, 0, 0, 0, 0, 0, 0x70], 0, 0) := by decide
theorem test_sbc_ignores_the_prior_carry :
    after (st 0x3B 0x2A 0 0 0 0 0 0x10 0x41) = some ([0x11, 0x2A, 0, 0, 0, 0, 0, 0x40], 0, 0) := by decide
theorem test_cp_leaves_a : after (st 0x3C 0x40 0 0 0 0 0 0 0x81) = some ([0x3C, 0x40, 0, 0, 0, 0, 0, 0x50], 0, 0) := by decide
theorem test_cp_wrong_width :
    after (st 0x11 0 0 0 0 0 0 0x50 0x8A) = some ([0x11, 0, 0, 0, 0, 0, 0, 0x50], 1, 0) := by decide
theorem test_and_zero_keeps_h :
    after (st 0x5A 0xA5 0 0 0 0 0 0 0x51) = some ([0x00, 0xA5, 0, 0, 0, 0, 0, 0xA0], 0, 0) := by decide
theorem test_and_clears_old_n_and_c : after (st 0 0 0 0 0 0 0 0x50 0x50) = some ([0, 0, 0, 0, 0, 0, 0, 0xA0], 0, 0) := by decide
theorem test_or_target_d :
    after (st 0x12 0 0 0x0F 0 0 0 0 0x63) = some ([0x1F, 0, 0, 0x0F, 0, 0, 0, 0x00], 0, 0) := by decide
theorem test_or_a_clears_n_h_c : after (st 0x80 0 0 0 0 0 0 0x70 0x60) = some ([0x80, 0, 0, 0, 0, 0, 0, 0x00], 0, 0) := by decide
theorem test_xor_a_is_zero : after (st 0x3C 0 0 0 0 0 0 0 0x70) = some ([0x00, 0, 0, 0, 0, 0, 0, 0x80], 0, 0) := by decide
theorem test_xor_target_h :
    after (st 0x5A 0 0 0 0 0xA5 0 0 0x75) = some ([0xFF, 0, 0, 0, 0, 0xA5, 0, 0x00], 0, 0) := by decide
theorem test_inc_wraps_and_keeps_carry :
    after (st 0 0xFF 0 0 0 0 0 0x10 0x91) = some ([0, 0x00, 0, 0, 0, 0, 0, 0xB0], 0, 0) := by decide
theorem test_inc_l_does_not_carry_into_h :
    after (st 0 0 0 0 0 0 0xFF 0 0x96) = some ([0, 0, 0, 0, 0, 0, 0x00, 0xA0], 0, 0) := by decide
theorem test_dec_half_borrow_keeps_carry :
    after (st 0 0x10 0 0 0 0 0 0x10 0xA1) = some ([0, 0x0F, 0, 0, 0, 0, 0, 0x70], 0, 0) := by decide
theorem test_dec_l_does_not_borrow_from_h :
    after (st 0 0 0 0 0 0 0 0 0xA6) = some ([0, 0, 0, 0, 0, 0, 0xFF, 0x60], 0, 0) := by decide
theorem test_addpair_af_reads_f_before_the_commit :
    after (st 0x12 0 0 0 0 0x01 0 0xB0 0x28) = some ([0x12, 0, 0, 0, 0, 0x13, 0xB0, 0x00], 0, 0) := by decide
theorem test_addpair_wraps_and_sets_z :
    after (st 0 0 0x01 0 0 0xFF 0xFF 0 0x29) = some ([0, 0, 0x01, 0, 0, 0x00, 0x00, 0xB0], 0, 0) := by decide

-- ==== errors and the idle block (95 table 2.13; 60_exceptions.md R126, R133) ====

theorem test_inc16_is_unsupported :
    after (st 0 0x12 0x34 0 0 0 0 0x50 0xB9) = some ([0, 0x12, 0x34, 0, 0, 0, 0, 0x50], 2, 0) := by decide
theorem test_dec16_is_unsupported :
    after (st 0 0x12 0x34 0 0 0 0 0x50 0xC9) = some ([0, 0x12, 0x34, 0, 0, 0, 0, 0x50], 2, 0) := by decide
theorem test_unimplD_is_unsupported :
    after (st 0x11 0 0 0 0 0 0 0x50 0xD0) = some ([0x11, 0, 0, 0, 0, 0, 0, 0x50], 2, 0) := by decide
theorem test_unimplE_is_unsupported :
    after (st 0x11 0 0 0 0 0 0 0x50 0xE1) = some ([0x11, 0, 0, 0, 0, 0, 0, 0x50], 2, 0) := by decide
theorem test_unsupported_wins_over_a_bad_target :
    after (st 0x11 0 0 0 0 0 0 0x50 0xF7) = some ([0x11, 0, 0, 0, 0, 0, 0, 0x50], 2, 0) := by decide
theorem test_error_records_the_target :
    (nextOf (step (st 0x11 0 0 0 0 0 0 0x50 0x0F))).map (fun t => t.result) = some (.invalidOperandWidth (.unassigned 0xF#4)) := by
  decide
theorem test_reset_with_nothing_issued_is_idle : nextOf (step State.reset) = some State.reset := by decide
theorem test_first_instruction_after_reset :
    after (State.reset.withFetchWord 8 0xA0) = some ([0xFF, 0, 0, 0, 0, 0, 0, 0x60], 0, 0) := by decide

-- ==== witnesses: each hypothesis of a statement is met ====

/-- A state of some variety, for the witnesses. -/
def sample : State := st 0x12 0x34 0x56 0x78 0x9A 0xBC 0xDE 0xB0 0x01

theorem witness_StepExecutesTheOldestCommand :
    decode sample.pending = .ok (.add (.reg8 .b), []) ∧ State.reset.pending = [] := by decide

theorem witness_PlacedWordIsExecutedNext : 0 < 256 ∧ 255 < 256 := by decide

theorem witness_EncodedInstructionDecodesToItself :
    (Instr.add (.reg8 .a)).wellFormed = true ∧ (Instr.unimplF (.unassigned 0xF#4)).wellFormed = true
      ∧ (Instr.addpair (.unassigned 0x7#4)).wellFormed = true := by decide

theorem witness_EachByteSelectsItsOneTableRow :
    decode [0xFF#8, 0x00#8] = .ok (.unimplF (.unassigned 0xF#4), [0x00#8]) := by decide

theorem witness_AssemblerTextIsReadBack :
    Tag.add.family ≠ .noHandler ∧ ∀ code : Nibble, OperandTarget.pair .hl ≠ .unassigned code := by decide

theorem witness_ResolversAcceptTheirWidthOnly :
    (0x0#4).toNat = registerNumber .a ∧ (0x6#4).toNat = registerNumber .l
      ∧ (0x8#4).toNat = 8 + pairNumber .af ∧ (0xB#4).toNat = 8 + pairNumber .hl
      ∧ 7 ≤ (0x7#4).toNat ∧ 7 ≤ (0xF#4).toNat ∧ (0x7#4).toNat < 8 ∧ 12 ≤ (0xC#4).toNat := by decide

theorem witness_PairViewsConcatenateAndSplit : Pair.bc ≠ .af := by decide

theorem witness_RegisterWritesShowInTheirViews :
    Reg8.a = highRegister .af ∧ lowRegister .hl = some .l ∧ (Reg8.b ≠ highRegister .hl ∧ lowRegister .hl ≠ some .b)
      ∧ (Reg8.c ≠ highRegister .af ∧ lowRegister .af ≠ some .c) ∧ Pair.de ≠ .af := by decide

theorem witness_SnapshotShowsTheWholeRegisterFile : sample.inv = true ∧ State.reset.inv = true := by decide

theorem witness_RejectsAllButRegisters :
    (OperandTarget.pair .hl).isReg8 = false ∧ (OperandTarget.unassigned 0x7#4).isReg8 = false := by decide

theorem witness_AddPairAddsIntoHl :
    (OperandTarget.reg8 .a).isPair = false ∧ (OperandTarget.unassigned 0xC#4).isPair = false := by decide

theorem witness_UnsupportedTagsOnlyReportThemselves : 0xB0 ≤ (0xB0#8).toNat ∧ 0xB0 ≤ (0xFF#8).toNat := by decide

theorem witness_FailedExecuteChangesNoRegister :
    exec (.add (.pair .bc)) sample = .next { sample with result := .invalidOperandWidth (.pair .bc) }
      ∧ ({ sample with result := .invalidOperandWidth (.pair .bc) } : State).result ≠ .ok := ⟨rfl, by decide⟩

theorem witness_EarlierErrorsHaveNoInfluence :
    exec (.inc16 (.reg8 .a)) sample = .next { sample with result := .unsupportedInstruction .inc16 }
      ∧ ({ sample with result := .unsupportedInstruction .inc16 } : State).result ≠ .ok := ⟨rfl, by decide⟩

theorem witness_SuccessfulExecuteOverwritesAllFlags :
    ((Instr.add (.reg8 .b)).legal = true ∧ (Instr.add (.reg8 .b)).tag.family ≠ .incDec
        ∧ Instr.add (.reg8 .b) ≠ .addpair (.pair .af))
      ∧ ((Instr.inc (.reg8 .b)).legal = true ∧ (Instr.inc (.reg8 .b)).tag.family = .incDec
        ∧ (FlagState.mk false true false true).carry = sample.regs.getFlags.carry) := by decide

theorem witness_ExecuteWritesOnlyItsRegisters :
    (nextOf (exec (.inc (.reg8 .b)) sample)).map (fun t => t.regs.b) = some 0x35#8 := by decide

theorem witness_ExecuteReadsOnlyItsRegisters :
    AgreeOnReads (.inc (.reg8 .b)) sample.regs { sample.regs with a := 0xFF, h := 0x00, f := 0x10 }
      ∧ AgreeOnReads (.addpair (.pair .af)) sample.regs { sample.regs with b := 0xFF, e := 0x00 }
      ∧ AgreeOnReads (.xor (.reg8 .c)) sample.regs { sample.regs with f := 0x00, d := 0x01 } := by
  unfold AgreeOnReads
  decide

theorem witness_SnapshotDeterminesEveryRun :
    sample.snapshot = ({ sample with regs := { sample.regs with f := 0xBF }, result := .unsupportedInstruction .dec16 } : State).snapshot
      ∧ sample.pending = ({ sample with regs := { sample.regs with f := 0xBF }, result := .unsupportedInstruction .dec16 } : State).pending := by
  decide

theorem witness_EveryStepKeepsTheLowNibbleOfFZero :
    sample.inv = true ∧ (nextOf (step sample)).isSome = true := by decide

theorem witness_CommandsTakeEffectInIssueOrder :
    Host.Core.run core [0xD7#8].length { sample with pending := [0xD7#8] }
      = .next { sample with pending := [], result := .unsupportedInstruction .unimplD } := rfl

theorem witness_EveryStartStateIsSafe : State.inv ⟨⟨0xFF, 0, 0, 0, 0, 0, 0, 0xF0⟩, .ok, [0x28#8]⟩ = true := by decide

end Sys2Proof.Tests
end

section
/-! SUPPORT. The ports of the register file (10_state.md sections 3 to 6): what each reads after each write, on
numbers and on flags. -/

namespace Sys2Proof.Machine

/-! ### The flag codec (R24 to R26) -/

theorem encode_toNat (f : FlagState) : f.encode.toNat
    = 128 * f.zero.toNat + 64 * f.subtraction.toNat + 32 * f.halfCarry.toNat + 16 * f.carry.toNat := by
  obtain ⟨z, n, h, c⟩ := f
  cases z <;> cases n <;> cases h <;> cases c <;> rfl

theorem getLsbD_toNat {w : Nat} (b : BitVec w) (i : Nat) : (b.getLsbD i).toNat = b.toNat / 2 ^ i % 2 :=
  Nat.toNat_testBit b.toNat i

@[simp] theorem decode_encode (f : FlagState) : FlagState.decode f.encode = f := by
  obtain ⟨z, n, h, c⟩ := f
  cases z <;> cases n <;> cases h <;> cases c <;> rfl

theorem decode_toNat (b : Byte) :
    (FlagState.decode b).zero.toNat = b.toNat / 128 % 2
      ∧ (FlagState.decode b).subtraction.toNat = b.toNat / 64 % 2
      ∧ (FlagState.decode b).halfCarry.toNat = b.toNat / 32 % 2
      ∧ (FlagState.decode b).carry.toNat = b.toNat / 16 % 2 :=
  ⟨getLsbD_toNat b 7, getLsbD_toNat b 6, getLsbD_toNat b 5, getLsbD_toNat b 4⟩

/-- Masking with 0xF0 clears the low nibble. -/
theorem and_flagBits_toNat (b : Byte) : (b &&& 0xF0#8).toNat = b.toNat / 16 * 16 := by
  have hshift : b &&& 0xF0#8 = (b >>> 4) <<< 4 := by
    ext i hi
    have hcases : i = 0 ∨ i = 1 ∨ i = 2 ∨ i = 3 ∨ i = 4 ∨ i = 5 ∨ i = 6 ∨ i = 7 := by omega
    rcases hcases with rfl | rfl | rfl | rfl | rfl | rfl | rfl | rfl <;> simp
  have hb := b.isLt
  rw [hshift, BitVec.toNat_shiftLeft, BitVec.toNat_ushiftRight, Nat.shiftRight_eq_div_pow, Nat.shiftLeft_eq]
  omega

/-- Encoding what a byte decodes to clears its low nibble. -/
theorem encode_decode (b : Byte) : (FlagState.decode b).encode = b &&& 0xF0#8 := by
  apply BitVec.eq_of_toNat_eq
  obtain ⟨hz, hn, hh, hc⟩ := decode_toNat b
  rw [encode_toNat, and_flagBits_toNat, hz, hn, hh, hc]
  have hb := b.isLt
  omega

/-! ### F and its port (R21, R31, R32) -/

theorem flagByte_toNat (rf : RegisterFile) : rf.flagByte.toNat = rf.f.toNat / 16 * 16 := and_flagBits_toNat rf.f

/-- The flags a state shows determine the byte F reads. -/
@[simp] theorem encode_getFlags (rf : RegisterFile) : rf.getFlags.encode = rf.flagByte := by
  rw [RegisterFile.getFlags, encode_decode, RegisterFile.flagByte, BitVec.and_assoc, BitVec.and_self]

@[simp] theorem flagByte_setFlags (rf : RegisterFile) (f : FlagState) : (rf.setFlags f).flagByte = f.encode := by
  rw [RegisterFile.flagByte, setFlags_f, ← encode_decode, decode_encode]

@[simp] theorem getFlags_setFlags (rf : RegisterFile) (f : FlagState) : (rf.setFlags f).getFlags = f := by
  rw [RegisterFile.getFlags, flagByte_setFlags, decode_encode]

@[simp] theorem setFlags_setFlags (rf : RegisterFile) (f g : FlagState) :
    (rf.setFlags g).setFlags f = rf.setFlags f := rfl

@[simp] theorem wf_setFlags (rf : RegisterFile) (f : FlagState) : (rf.setFlags f).wf = true := by
  rw [RegisterFile.wf, setFlags_f, encode_lowNibble_zero, beq_self_eq_true]

/-- In a register file the block can hold, F reads as it is stored. -/
theorem flagByte_of_wf {rf : RegisterFile} (h : rf.wf = true) : rf.flagByte = rf.f := by
  have hlow : lowNibble rf.f = 0 := congrArg BitVec.toNat (eq_of_beq h)
  rw [lowNibble_eq_mod] at hlow
  apply BitVec.eq_of_toNat_eq
  rw [flagByte_toNat]
  omega

/-! ### The pair views (R29, R30) -/

/-- What stands in the low byte of a view: its second register, or F for AF (20_memory.md R42). -/
def RegisterFile.viewLow (rf : RegisterFile) (p : Pair) : Byte := (lowRegister p).elim rf.flagByte rf.get8

theorem getPair_eq_concat (rf : RegisterFile) (p : Pair) :
    rf.getPair p = concat (rf.get8 (highRegister p)) (rf.viewLow p) := by
  cases p <;> rfl

theorem getPair_toNat (rf : RegisterFile) (p : Pair) :
    (rf.getPair p).toNat = 256 * (rf.get8 (highRegister p)).toNat + (rf.viewLow p).toNat := by
  rw [getPair_eq_concat, concat_toNat]

theorem viewLow_af (rf : RegisterFile) : rf.viewLow .af = rf.flagByte := rfl

theorem viewLow_of_lowRegister (rf : RegisterFile) {p : Pair} {r : Reg8} (h : lowRegister p = some r) :
    rf.viewLow p = rf.get8 r := by
  rw [RegisterFile.viewLow, h, Option.elim_some]

theorem lowRegister_of_ne_af {p : Pair} (h : p ≠ .af) : ∃ r, lowRegister p = some r := by
  cases p with
  | af => exact absurd rfl h
  | bc => exact ⟨_, rfl⟩
  | de => exact ⟨_, rfl⟩
  | hl => exact ⟨_, rfl⟩

/-- A view's two registers are different ones. -/
theorem lowRegister_ne_highRegister (p : Pair) : lowRegister p ≠ some (highRegister p) := by
  cases p <;> decide

theorem viewLow_set8 (rf : RegisterFile) {p : Pair} {r : Reg8} (v : Byte) (h : lowRegister p ≠ some r) :
    (rf.set8 r v).viewLow p = rf.viewLow p := by
  unfold RegisterFile.viewLow
  cases hp : lowRegister p with
  | none => exact flagByte_set8 rf r v
  | some q => exact get8_set8_of_ne rf v (fun hqr => h (by rw [hp, hqr]))

/-- What a view reads depends on the registers behind it, and on F for AF only. -/
theorem getPair_congr {x y : RegisterFile} {p : Pair} (hr : ∀ r ∈ targetRegisters (.pair p), x.get8 r = y.get8 r)
    (hf : p = .af → x.flagByte = y.flagByte) : x.getPair p = y.getPair p := by
  cases p with
  | af => simp only [RegisterFile.getPair, hr .a (by decide), hf rfl]
  | bc => simp only [RegisterFile.getPair, hr .b (by decide), hr .c (by decide)]
  | de => simp only [RegisterFile.getPair, hr .d (by decide), hr .e (by decide)]
  | hl => simp only [RegisterFile.getPair, hr .h (by decide), hr .l (by decide)]

@[simp] theorem get8_setPair_highRegister (rf : RegisterFile) (p : Pair) (v : Word16) :
    (rf.setPair p v).get8 (highRegister p) = highByte v := by
  cases p <;> rfl

theorem get8_setPair_lowRegister (rf : RegisterFile) {p : Pair} {r : Reg8} (v : Word16) (h : lowRegister p = some r) :
    (rf.setPair p v).get8 r = lowByte v := by
  cases p <;> cases h <;> rfl

@[simp] theorem get8_h_setPair_hl (rf : RegisterFile) (v : Word16) : (rf.setPair .hl v).get8 .h = highByte v := rfl
@[simp] theorem get8_l_setPair_hl (rf : RegisterFile) (v : Word16) : (rf.setPair .hl v).get8 .l = lowByte v := rfl

theorem get8_setPair_of_notMem (rf : RegisterFile) {p : Pair} {r : Reg8} (v : Word16)
    (h : r ∉ targetRegisters (.pair p)) : (rf.setPair p v).get8 r = rf.get8 r := by
  cases p <;> simp only [targetRegisters, List.mem_cons, List.not_mem_nil, or_false, not_or] at h <;>
    simp [RegisterFile.setPair, h]

theorem setPair_f_of_ne_af (rf : RegisterFile) {p : Pair} (v : Word16) (h : p ≠ .af) : (rf.setPair p v).f = rf.f := by
  cases p with
  | af => exact absurd rfl h
  | bc => rfl
  | de => rfl
  | hl => rfl

theorem setPair_af_f (rf : RegisterFile) (v : Word16) : (rf.setPair .af v).f = lowByte v &&& 0xF0#8 :=
  encode_decode (lowByte v)

theorem flagByte_setPair_af (rf : RegisterFile) (v : Word16) :
    (rf.setPair .af v).flagByte = lowByte v &&& 0xF0#8 := by
  rw [RegisterFile.setPair, flagByte_setFlags, encode_decode]

theorem getPair_setPair_of_ne_af (rf : RegisterFile) {p : Pair} (v : Word16) (h : p ≠ .af) :
    (rf.setPair p v).getPair p = v := by
  obtain ⟨r, hr⟩ := lowRegister_of_ne_af h
  rw [getPair_eq_concat, viewLow_of_lowRegister _ hr, get8_setPair_highRegister, get8_setPair_lowRegister _ _ hr,
    concat_high_low]

/-! ### Snapshot (R36) -/

/-- A Snapshot shows the seven registers and the byte F reads, and nothing else. -/
theorem snapshot_eq_iff {x y : RegisterFile} :
    x.snapshot = y.snapshot ↔ (∀ r, x.get8 r = y.get8 r) ∧ x.flagByte = y.flagByte := by
  constructor
  · intro h
    obtain ⟨ha, hb, hc, hd, he, hh, hl, hf⟩ := Snapshot.mk.inj h
    refine ⟨fun r => ?_, ?_⟩
    · cases r <;> assumption
    · rw [← encode_getFlags x, ← encode_getFlags y, hf]
  · rintro ⟨hr, hf⟩
    simp only [RegisterFile.snapshot, RegisterFile.getFlags, hr, hf]

/-- For register files the block can hold, a Snapshot hides nothing. -/
theorem snapshot_eq_iff_of_wf {x y : RegisterFile} (hx : x.wf = true) (hy : y.wf = true) :
    x.snapshot = y.snapshot ↔ x = y := by
  constructor
  · intro h
    obtain ⟨hr, hf⟩ := snapshot_eq_iff.mp h
    rw [flagByte_of_wf hx, flagByte_of_wf hy] at hf
    exact RegisterFile.ext_ports hr hf
  · rintro rfl
    rfl

end Sys2Proof.Machine
end

section
/-! SUPPORT. What one Execute and one step read and write (10_state.md R34, R37): a legal instruction is one of four
commits, and every fact about all instructions is a case split on those. -/

namespace Sys2Proof.Machine

theorem exists_reg8_of_isReg8 {t : OperandTarget} (h : t.isReg8 = true) : ∃ r, t = .reg8 r := by
  cases t with
  | reg8 r => exact ⟨r, rfl⟩
  | pair p => cases h
  | unassigned code => cases h

theorem exists_pair_of_isPair {t : OperandTarget} (h : t.isPair = true) : ∃ p, t = .pair p := by
  cases t with
  | reg8 r => cases h
  | pair p => exact ⟨p, rfl⟩
  | unassigned code => cases h

/-- The ways a legal instruction commits, one for each flow of 40_dispatch.md R73, each with what the table of
10_state.md R34 lets the instruction write and read. -/
inductive Commits (i : Instr) : Prop where
  /-- A becomes alu(A, r). -/
  | accumulator (alu : Byte → Byte → Byte × FlagState) (r : Reg8) (writes : mayWrite i = [.a])
      (reads : mayRead i = [.a, r])
      (runs : ∀ s, exec i s = returnOk ((s.regs.set8 .a (alu (s.regs.get8 .a) (s.regs.get8 r)).1).setFlags
        (alu (s.regs.get8 .a) (s.regs.get8 r)).2) s)
  /-- The flags of alu(A, r) alone are committed. -/
  | compare (alu : Byte → Byte → Byte × FlagState) (r : Reg8) (writes : mayWrite i = [])
      (reads : mayRead i = [.a, r])
      (runs : ∀ s, exec i s = returnOk (s.regs.setFlags (alu (s.regs.get8 .a) (s.regs.get8 r)).2) s)
  /-- HL becomes alu(HL, p). -/
  | pair (alu : Word16 → Word16 → Word16 × FlagState) (p : Pair) (isAddPair : i = .addpair (.pair p))
      (runs : ∀ s, exec i s = returnOk ((s.regs.setPair .hl (alu (s.regs.getPair .hl) (s.regs.getPair p)).1).setFlags
        (alu (s.regs.getPair .hl) (s.regs.getPair p)).2) s)
  /-- r becomes alu(r, Carry). -/
  | incDec (alu : Byte → Bool → Byte × FlagState) (r : Reg8) (writes : mayWrite i = [r]) (reads : mayRead i = [r])
      (family : i.tag.family = .incDec)
      (runs : ∀ s, exec i s = returnOk ((s.regs.set8 r (alu (s.regs.get8 r) s.regs.getFlags.carry).1).setFlags
        (alu (s.regs.get8 r) s.regs.getFlags.carry).2) s)

theorem commits_of_legal {i : Instr} (h : i.legal = true) : Commits i := by
  cases i with
  | add t => obtain ⟨r, rfl⟩ := exists_reg8_of_isReg8 h; exact .accumulator aluAdd r rfl rfl fun _ => rfl
  | adc t => obtain ⟨r, rfl⟩ := exists_reg8_of_isReg8 h; exact .accumulator aluAdc r rfl rfl fun _ => rfl
  | addpair t => obtain ⟨p, rfl⟩ := exists_pair_of_isPair h; exact .pair aluAddPair p rfl fun _ => rfl
  | sub t => obtain ⟨r, rfl⟩ := exists_reg8_of_isReg8 h; exact .accumulator aluSub r rfl rfl fun _ => rfl
  | sbc t => obtain ⟨r, rfl⟩ := exists_reg8_of_isReg8 h; exact .accumulator aluSbc r rfl rfl fun _ => rfl
  | and t => obtain ⟨r, rfl⟩ := exists_reg8_of_isReg8 h; exact .accumulator aluAnd r rfl rfl fun _ => rfl
  | or t => obtain ⟨r, rfl⟩ := exists_reg8_of_isReg8 h; exact .accumulator aluOr r rfl rfl fun _ => rfl
  | xor t => obtain ⟨r, rfl⟩ := exists_reg8_of_isReg8 h; exact .accumulator aluXor r rfl rfl fun _ => rfl
  | cp t => obtain ⟨r, rfl⟩ := exists_reg8_of_isReg8 h; exact .compare aluSub r rfl rfl fun _ => rfl
  | inc t => obtain ⟨r, rfl⟩ := exists_reg8_of_isReg8 h; exact .incDec aluInc r rfl rfl rfl fun _ => rfl
  | dec t => obtain ⟨r, rfl⟩ := exists_reg8_of_isReg8 h; exact .incDec aluDec r rfl rfl rfl fun _ => rfl
  | inc16 t | dec16 t | unimplD t | unimplE t | unimplF t => cases h

theorem expectedResult_ne_ok {i : Instr} (h : i.legal = false) : expectedResult i ≠ .ok := by
  unfold expectedResult
  split
  · exact ExecResult.noConfusion
  · rw [if_neg (by rw [h]; decide)]
    exact ExecResult.noConfusion

/-- An Execute takes no command off the port and puts none on it. -/
theorem exec_pending {i : Instr} {s t : State} (h : exec i s = .next t) : t.pending = s.pending := by
  obtain ⟨-, rf, f, hs⟩ | ⟨-, hs⟩ := exec_spec i s <;> cases hs.symm.trans h <;> rfl

/-- An Execute that returns an error changes no register and no flag. -/
theorem exec_regs_of_error {i : Instr} {s t : State} (h : exec i s = .next t) (he : t.result ≠ .ok) :
    t.regs = s.regs := by
  obtain ⟨-, rf, f, hs⟩ | ⟨-, hs⟩ := exec_spec i s <;> cases hs.symm.trans h
  · exact absurd rfl he
  · rfl

theorem exec_inv {i : Instr} {s t : State} (hs : s.inv = true) (h : exec i s = .next t) : t.inv = true := by
  obtain ⟨-, rf, f, hx⟩ | ⟨-, hx⟩ := exec_spec i s <;> cases hx.symm.trans h
  · exact wf_setFlags rf f
  · exact hs

/-- The frame of every commit. -/
theorem Commits.sameExcept {i : Instr} {s t : State} (hc : Commits i) (h : exec i s = .next t) :
    RegisterFile.SameExcept (mayWrite i) s.regs t.regs := by
  intro q hq
  cases hc with
  | accumulator alu r writes reads runs =>
    cases (runs s).symm.trans h
    rw [writes, List.mem_singleton] at hq
    rw [get8_setFlags, get8_set8_of_ne _ _ hq]
  | compare alu r writes reads runs =>
    cases (runs s).symm.trans h
    exact get8_setFlags _ _ q
  | pair alu p isAddPair runs =>
    cases (runs s).symm.trans h
    subst isAddPair
    exact (get8_setFlags _ _ q).trans (get8_setPair_of_notMem _ _ hq)
  | incDec alu r writes reads family runs =>
    cases (runs s).symm.trans h
    rw [writes, List.mem_singleton] at hq
    rw [get8_setFlags, get8_set8_of_ne _ _ hq]

theorem exec_sameExcept {i : Instr} {s t : State} (h : exec i s = .next t) :
    RegisterFile.SameExcept (mayWrite i) s.regs t.regs := by
  obtain ⟨hl, -⟩ | ⟨-, hs⟩ := exec_spec i s
  · exact (commits_of_legal hl).sameExcept h
  · cases hs.symm.trans h
    exact fun _ _ => rfl

/-- Two states agree on all a successful Execute of i writes: its registers and the four flags. -/
def AgreeOnWrites (i : Instr) (t t' : State) : Prop :=
  (∀ r ∈ mayWrite i, t.regs.get8 r = t'.regs.get8 r) ∧ t.regs.getFlags = t'.regs.getFlags

/-- A commit depends on nothing but what its instruction may read: its alu function gets equal operands. -/
theorem Commits.agreeOnWrites {i : Instr} {s s' t t' : State} (hc : Commits i) (ha : AgreeOnReads i s.regs s'.regs)
    (h : exec i s = .next t) (h' : exec i s' = .next t') : AgreeOnWrites i t t' := by
  obtain ⟨hregs, hcarry, haf⟩ := ha
  unfold AgreeOnWrites
  cases hc with
  | accumulator alu r writes reads runs =>
    cases (runs s).symm.trans h
    cases (runs s').symm.trans h'
    have hacc : s.regs.get8 .a = s'.regs.get8 .a := hregs .a (by simp [reads])
    have hr : s.regs.get8 r = s'.regs.get8 r := hregs r (by simp [reads])
    simp [writes, hacc, hr]
  | compare alu r writes reads runs =>
    cases (runs s).symm.trans h
    cases (runs s').symm.trans h'
    have hacc : s.regs.get8 .a = s'.regs.get8 .a := hregs .a (by simp [reads])
    have hr : s.regs.get8 r = s'.regs.get8 r := hregs r (by simp [reads])
    simp [writes, hacc, hr]
  | pair alu p isAddPair runs =>
    cases (runs s).symm.trans h
    cases (runs s').symm.trans h'
    subst isAddPair
    have hhl : s.regs.getPair .hl = s'.regs.getPair .hl :=
      getPair_congr (fun r hr => hregs r (List.mem_append_left _ hr)) (fun hp => nomatch hp)
    have hp : s.regs.getPair p = s'.regs.getPair p :=
      getPair_congr (fun r hr => hregs r (List.mem_append_right _ hr)) (fun hp => haf (hp ▸ rfl))
    simp [mayWrite, hhl, hp]
  | incDec alu r writes reads family runs =>
    cases (runs s).symm.trans h
    cases (runs s').symm.trans h'
    have hr : s.regs.get8 r = s'.regs.get8 r := hregs r (by simp [reads])
    simp [writes, hr, hcarry family]

/-- An Execute depends on nothing but what its instruction may read. -/
theorem exec_agree {i : Instr} {s s' : State} (ha : AgreeOnReads i s.regs s'.regs) :
    ∃ t t', exec i s = .next t ∧ exec i s' = .next t' ∧ t.result = t'.result
      ∧ (t.result = .ok → AgreeOnWrites i t t') := by
  obtain ⟨hl, rf, f, hs⟩ | ⟨hl, hs⟩ := exec_spec i s <;> obtain ⟨hl', rf', f', hs'⟩ | ⟨hl', hs'⟩ := exec_spec i s'
  · exact ⟨_, _, hs, hs', rfl, fun _ => (commits_of_legal hl).agreeOnWrites ha hs hs'⟩
  · cases hl.symm.trans hl'
  · cases hl.symm.trans hl'
  · exact ⟨_, _, hs, hs', rfl, fun hok => absurd hok (expectedResult_ne_ok hl)⟩

theorem agreeOnReads_of_snapshot {x y : RegisterFile} (h : x.snapshot = y.snapshot) (i : Instr) :
    AgreeOnReads i x y := by
  obtain ⟨hr, hf⟩ := snapshot_eq_iff.mp h
  exact ⟨fun r _ => hr r, fun _ => by rw [RegisterFile.getFlags, RegisterFile.getFlags, hf], fun _ => hf⟩

/-- Equal snapshots before an Execute give equal snapshots after it: what it writes agrees by exec_agree, and all else
is as before by exec_sameExcept. -/
theorem exec_snapshot {i : Instr} {s s' : State} (h : s.snapshot = s'.snapshot) :
    ∃ t t', exec i s = .next t ∧ exec i s' = .next t' ∧ t.snapshot = t'.snapshot := by
  obtain ⟨t, t', ht, ht', hres, hw⟩ := exec_agree (agreeOnReads_of_snapshot h i)
  refine ⟨t, t', ht, ht', ?_⟩
  by_cases hok : t.result = .ok
  · obtain ⟨hregs, hflags⟩ := hw hok
    refine snapshot_eq_iff.mpr ⟨fun r => ?_, by rw [← encode_getFlags, hflags, encode_getFlags]⟩
    by_cases hr : r ∈ mayWrite i
    · exact hregs r hr
    · rw [exec_sameExcept ht r hr, exec_sameExcept ht' r hr, (snapshot_eq_iff.mp h).1 r]
  · rw [State.snapshot, State.snapshot, exec_regs_of_error ht hok, exec_regs_of_error ht' (hres ▸ hok)]
    exact h

/-! ### One step -/

theorem step_of_pending {s : State} {cmd : Byte} {rest : List Byte} (h : s.pending = cmd :: rest) :
    step s = exec (decodeByte cmd) { s with pending := rest } := by
  rw [step, fetch_of_pending h]

theorem step_of_nothing {s : State} (h : s.pending = []) : step s = .next s := by
  rw [step, fetch_of_nothing h, idle]

/-- One step keeps equal snapshots, and equal commands to come, equal. -/
theorem step_snapshot {s s' : State} (h : s.snapshot = s'.snapshot) (hp : s.pending = s'.pending) :
    ∃ t t', step s = .next t ∧ step s' = .next t' ∧ t.snapshot = t'.snapshot ∧ t.pending = t'.pending := by
  cases hq : s.pending with
  | nil => exact ⟨s, s', step_of_nothing hq, step_of_nothing (hp ▸ hq), h, hp⟩
  | cons cmd rest =>
    rw [step_of_pending hq, step_of_pending (hp ▸ hq)]
    obtain ⟨t, t', ht, ht', hsnap⟩ := exec_snapshot (i := decodeByte cmd)
      (s := { s with pending := rest }) (s' := { s' with pending := rest }) h
    exact ⟨t, t', ht, ht', hsnap, (exec_pending ht).trans (exec_pending ht').symm⟩

end Sys2Proof.Machine
end

section
/-! The statements of 10_state.md, settled from the laws above. -/

namespace Sys2Proof.Machine

/-- Settles O36: snapshot equality with equal commands to come is kept by each step, so by k of them, by induction
over k. -/
theorem snapshotDeterminesEveryRun : Obligations.SnapshotDeterminesEveryRun := by
  intro k
  induction k with
  | zero => exact fun s s' h hp => ⟨s, s', core_run_zero s, core_run_zero s', h, hp⟩
  | succ k ih =>
    intro s s' h hp
    obtain ⟨t, t', ht, ht', hsnap, hpend⟩ := step_snapshot h hp
    rw [core_run_succ ht, core_run_succ ht']
    exact ih t t' hsnap hpend

/-- Settles O37: an idle step changes nothing, and an Execute either changes no register or ends in a SetFlags. -/
theorem everyStepKeepsTheLowNibbleOfFZero : Obligations.EveryStepKeepsTheLowNibbleOfFZero := by
  intro s t hs h
  cases hq : s.pending with
  | nil =>
    cases (step_of_nothing hq).symm.trans h
    exact hs
  | cons cmd rest =>
    rw [step_of_pending hq] at h
    exact exec_inv (s := { s with pending := rest }) hs h

/-- Settles O11, from the rules of the flag port. -/
theorem setFlagsOverwritesTheWholeByte : Obligations.SetFlagsOverwritesTheWholeByte := by
  intro rf f g
  have hlow : rf.flagByte.toNat % 16 = 0 := by rw [flagByte_toNat, Nat.mul_mod_left]
  exact ⟨hlow, getFlags_setFlags rf f, flagByte_setFlags rf f, setFlags_setFlags rf f g,
    fun r _ => get8_setFlags rf f r⟩

/-- Settles O12, from the rules of the pair views. -/
theorem pairViewsConcatenateAndSplit : Obligations.PairViewsConcatenateAndSplit := by
  intro rf v
  refine ⟨getPair_toNat rf .af, getPair_toNat rf .bc, getPair_toNat rf .de, getPair_toNat rf .hl,
    fun p hp => ⟨getPair_setPair_of_ne_af rf v hp, setPair_f_of_ne_af rf v hp, fun r => get8_setPair_of_notMem rf v⟩,
    ?_, ?_, fun r => get8_setPair_of_notMem rf (p := .af) v⟩
  · exact (congrArg BitVec.toNat (get8_setPair_highRegister rf .af v)).trans (highByte_toNat v)
  · rw [setPair_af_f, and_flagBits_toNat, lowByte_toNat]
    omega

/-- Settles O13: a view is its first register and what stands in its low byte, and each write is seen in one of the
two. -/
theorem registerWritesShowInTheirViews : Obligations.RegisterWritesShowInTheirViews := by
  intro rf r v f p w
  have hlow := (rf.viewLow p).isLt
  refine ⟨?_, ?_, ?_, ?_, ?_, ?_, ?_, ?_⟩
  · rintro rfl
    rw [getPair_toNat, getPair_toNat, get8_set8_same, viewLow_set8 rf v (lowRegister_ne_highRegister p)]
    omega
  · intro hr
    have hne : highRegister p ≠ r := fun h => lowRegister_ne_highRegister p (h ▸ hr)
    rw [getPair_toNat, getPair_toNat, viewLow_of_lowRegister _ hr, get8_set8_same, get8_set8_of_ne rf v hne]
    omega
  · intro hhigh hr
    rw [getPair_eq_concat, getPair_eq_concat, viewLow_set8 rf v hr, get8_set8_of_ne rf v (Ne.symm hhigh)]
  · rintro rfl
    rw [getPair_toNat, viewLow_af, flagByte_setFlags, get8_setFlags, highRegister]
  · intro hp
    exact getPair_congr (fun q _ => get8_setFlags rf f q) (fun h => absurd h hp)
  · rw [get8_setPair_highRegister, highByte_toNat]
  · intro hr
    rw [get8_setPair_lowRegister rf w hr, lowByte_toNat]
  · rintro rfl
    rw [flagByte_setPair_af, and_flagBits_toNat, lowByte_toNat]

/-- Settles O14: the Snapshot's fields are the ports' reads, and its flags encode to F where F has no hidden bits. -/
theorem snapshotShowsTheWholeRegisterFile : Obligations.SnapshotShowsTheWholeRegisterFile := by
  refine ⟨fun s => ⟨rfl, rfl, rfl, rfl, rfl, rfl, rfl, rfl, rfl⟩, fun s t hs ht => ⟨snapshot_eq_iff_of_wf hs ht, ?_⟩⟩
  exact (encode_getFlags s.regs).trans (flagByte_of_wf hs)

/-- Settles O34, by the frame of each commit. -/
theorem executeWritesOnlyItsRegisters : Obligations.ExecuteWritesOnlyItsRegisters :=
  fun _ _ _ h => exec_sameExcept h

/-- Settles O35: each commit computes from what its instruction may read, and an error from nothing. -/
theorem executeReadsOnlyItsRegisters : Obligations.ExecuteReadsOnlyItsRegisters :=
  fun _ _ _ h => exec_agree h

/-- Settles O10, from the rules of the codec. -/
theorem flagCodecPlacesBitsAndRoundTrips : Obligations.FlagCodecPlacesBitsAndRoundTrips :=
  ⟨encode_toNat, decode_toNat, fun f => ⟨decode_encode f, encode_lowNibble_zero f⟩, encode_decode⟩

/-- Settles O38, register by register and view by view of the creation state. -/
theorem creationLeavesAllRegistersZero : Obligations.CreationLeavesAllRegistersZero := by
  refine ⟨fun r => ?_, fun p => ?_, rfl, rfl, rfl⟩
  · cases r <;> rfl
  · cases p <;> rfl

end Sys2Proof.Machine
end

section
/-! SUPPORT. The commands that wait (20_memory.md R46): no Execute reads them, so a run over the first of them is the
same whatever is issued behind. -/

namespace Sys2Proof.Machine

theorem exec_next (i : Instr) (s : State) : ∃ t, exec i s = .next t := by
  obtain ⟨-, rf, f, hs⟩ | ⟨-, hs⟩ := exec_spec i s
  · exact ⟨_, hs⟩
  · exact ⟨_, hs⟩

theorem exec_of_not_legal {i : Instr} (h : i.legal = false) (s : State) :
    exec i s = .next { s with result := expectedResult i } := by
  obtain ⟨hl, -⟩ | ⟨-, hs⟩ := exec_spec i s
  · cases h.symm.trans hl
  · exact hs

/-- What an Execute does to the block is the same whatever commands wait, and they go on waiting. -/
theorem exec_set_pending {i : Instr} {s t : State} (h : exec i s = .next t) (waiting : List Byte) :
    exec i { s with pending := waiting } = .next { t with pending := waiting } := by
  cases hl : i.legal with
  | true =>
    cases commits_of_legal hl with
    | accumulator _ _ _ _ runs | compare _ _ _ _ runs | pair _ _ _ runs | incDec _ _ _ _ _ runs =>
      cases (runs s).symm.trans h
      exact runs { s with pending := waiting }
  | false =>
    cases (exec_of_not_legal hl s).symm.trans h
    exact exec_of_not_legal hl { s with pending := waiting }

/-- A run over the commands xs leaves the block as it would with ys issued behind them, and goes on with ys. -/
theorem core_run_append {xs : List Byte} {s t : State}
    (h : Host.Core.run core xs.length { s with pending := xs } = .next t) (ys : List Byte) (k : Nat) :
    Host.Core.run core (xs.length + k) { s with pending := xs ++ ys }
      = Host.Core.run core k { t with pending := ys } := by
  induction xs generalizing s with
  | nil =>
    cases (core_run_zero { s with pending := [] }).symm.trans h
    rw [List.length_nil, Nat.zero_add, List.nil_append]
  | cons cmd xs ih =>
    obtain ⟨u, hu⟩ := exec_next (decodeByte cmd) s
    have hstep (rest : List Byte) : step { s with pending := cmd :: rest } = .next { u with pending := rest } :=
      (step_of_pending rfl).trans (exec_set_pending hu rest)
    rw [List.length_cons, core_run_succ (hstep xs)] at h
    rw [List.length_cons, Nat.succ_add, List.cons_append, core_run_succ (hstep (xs ++ ys))]
    exact ih h

end Sys2Proof.Machine
end

section
/-! The statements of 20_memory.md, settled from the laws above. -/

namespace Sys2Proof.Machine

/-- Settles O40, by the composition of runs; the run over xs alone is its case of no steps more. -/
theorem commandsTakeEffectInIssueOrder : Obligations.CommandsTakeEffectInIssueOrder :=
  fun _ ys _ t h => ⟨(core_run_append h ys 0).trans (core_run_zero { t with pending := ys }), core_run_append h ys⟩

/-- Settles O1: a list of commands decodes exactly when it has an oldest one, and that is the one the step takes. -/
theorem stepExecutesTheOldestCommand : Obligations.StepExecutesTheOldestCommand := by
  refine ⟨fun s i rest h => ?_, fun s => step_of_nothing⟩
  cases hq : s.pending with
  | nil =>
    rw [hq] at h
    cases h
  | cons cmd tail =>
    rw [hq] at h
    cases h
    exact step_of_pending hq

end Sys2Proof.Machine
end

section
/-! SUPPORT. The command byte and its two fields (30_encoding.md sections 1 to 3): the codes and what they name are
each other's inverses, so the fields of a byte are the codes of the instruction it decodes to. -/

namespace Sys2Proof

@[simp] theorem opCode_ofOpCode : ∀ op : Nibble, (Tag.ofOpCode op).opCode = op := by decide

@[simp] theorem code_ofCode : ∀ code : Nibble, (OperandTarget.ofCode code).code = code := by decide

theorem wellFormed_ofCode : ∀ code : Nibble, (OperandTarget.ofCode code).wellFormed = true := by decide

@[simp] theorem commandByte_fields (cmd : Byte) : commandByte (opField cmd) (tgtField cmd) = cmd := by
  apply BitVec.eq_of_toNat_eq
  rw [commandByte_toNat, opField_toNat, tgtField_toNat]
  omega

@[simp] theorem tag_decodeByte (cmd : Byte) : (decodeByte cmd).tag = Tag.ofOpCode (opField cmd) := tag_apply _ _

@[simp] theorem target_decodeByte (cmd : Byte) : (decodeByte cmd).target = OperandTarget.ofCode (tgtField cmd) :=
  target_apply _ _

theorem wellFormed_decodeByte (cmd : Byte) : (decodeByte cmd).wellFormed = true := by
  rw [Instr.wellFormed, target_decodeByte, wellFormed_ofCode]

@[simp] theorem encodeByte_decodeByte (cmd : Byte) : encodeByte (decodeByte cmd) = cmd := by
  rw [encodeByte, tag_decodeByte, target_decodeByte, opCode_ofOpCode, code_ofCode, commandByte_fields]

theorem decodeByte_commandByte (op tgt : Nibble) :
    decodeByte (commandByte op tgt) = (Tag.ofOpCode op).apply (OperandTarget.ofCode tgt) := by
  rw [decodeByte, opField_commandByte, tgtField_commandByte]

theorem commandByte_ofNat {tgt : Nat} (op : Nat) (ht : tgt < 16) :
    commandByte (BitVec.ofNat 4 op) (BitVec.ofNat 4 tgt) = BitVec.ofNat 8 (16 * op + tgt) := by
  apply BitVec.eq_of_toNat_eq
  rw [commandByte_toNat, BitVec.toNat_ofNat, BitVec.toNat_ofNat, BitVec.toNat_ofNat]
  omega

/-! ### What a target code names (R52, R53) -/

open Machine

theorem ofCode_registerNumber {code : Nibble} {r : Reg8} (h : code.toNat = registerNumber r) :
    OperandTarget.ofCode code = .reg8 r := by
  have hcode : code = r.code := BitVec.eq_of_toNat_eq (h.trans (by cases r <;> rfl))
  rw [hcode]
  cases r <;> rfl

theorem ofCode_pairNumber {code : Nibble} {p : Pair} (h : code.toNat = 8 + pairNumber p) :
    OperandTarget.ofCode code = .pair p := by
  have hcode : code = p.code := BitVec.eq_of_toNat_eq (h.trans (by cases p <;> rfl))
  rw [hcode]
  cases p <;> rfl

theorem isReg8_ofCode : ∀ code : Nibble, (OperandTarget.ofCode code).isReg8 = decide (code.toNat < 7) := by decide

theorem isPair_ofCode : ∀ code : Nibble,
    (OperandTarget.ofCode code).isPair = decide (8 ≤ code.toNat ∧ code.toNat < 12) := by decide

end Sys2Proof
end

section
/-! SUPPORT. The status of an Execute (30_encoding.md R54, R59): the operand multiplexer by width, the status by
family, and how many target codes give each status. -/

namespace Sys2Proof.Machine

theorem resolveU8_of_not_isReg8 {t : OperandTarget} (h : t.isReg8 = false) (rf : RegisterFile) :
    resolveU8 t rf = .error (.invalidOperandWidth t) := by
  cases t with
  | reg8 r => cases h
  | pair p => rfl
  | unassigned code => rfl

theorem resolveU16_of_not_isPair {t : OperandTarget} (h : t.isPair = false) (rf : RegisterFile) :
    resolveU16 t rf = .error (.invalidOperandWidth t) := by
  cases t with
  | reg8 r => rfl
  | pair p => cases h
  | unassigned code => rfl

theorem family_ne_noHandler_of_legal {i : Instr} (h : i.legal = true) : i.tag.family ≠ .noHandler := by
  intro hf
  rw [Instr.legal, hf] at h
  cases h

theorem expectedResult_of_legal {i : Instr} (h : i.legal = true) : expectedResult i = .ok := by
  rw [expectedResult, if_neg (family_ne_noHandler_of_legal h), if_pos h]

theorem expectedResult_of_noHandler {i : Instr} (h : i.tag.family = .noHandler) :
    expectedResult i = .unsupportedInstruction i.tag := if_pos h

theorem expectedResult_of_wrong_width {i : Instr} (hl : i.legal = false) (hf : i.tag.family ≠ .noHandler) :
    expectedResult i = .invalidOperandWidth i.target := by
  rw [expectedResult, if_neg hf, hl]
  rfl

/-- The whole answer of an Execute on its port: the result the table of legal pairs gives. -/
theorem exec_result (i : Instr) (s : State) : ∃ t, exec i s = .next t ∧ t.result = expectedResult i := by
  obtain ⟨hl, rf, f, hs⟩ | ⟨-, hs⟩ := exec_spec i s
  · exact ⟨_, hs, (expectedResult_of_legal hl).symm⟩
  · exact ⟨_, hs, rfl⟩

theorem statusOf_exec (i : Instr) (s : State) : statusOf (exec i s) = some (expectedResult i).statusCode := by
  obtain ⟨t, ht, hr⟩ := exec_result i s
  rw [ht, ← hr]
  rfl

/-- The three statuses exclude each other, so each is given exactly by its own condition. -/
theorem statusCode_expectedResult (i : Instr) :
    ((expectedResult i).statusCode.toNat = 0 ↔ i.legal = true)
    ∧ ((expectedResult i).statusCode.toNat = 1 ↔ i.legal = false ∧ i.tag.family ≠ .noHandler)
    ∧ ((expectedResult i).statusCode.toNat = 2 ↔ i.tag.family = .noHandler) := by
  cases hl : i.legal with
  | true =>
    have hf := family_ne_noHandler_of_legal hl
    simp [expectedResult_of_legal hl, hf, ExecResult.statusCode]
  | false =>
    by_cases hf : i.tag.family = .noHandler
    · simp [expectedResult_of_noHandler hf, hf, ExecResult.statusCode]
    · simp [expectedResult_of_wrong_width hl hf, hf, ExecResult.statusCode]

theorem statusCode_ne_three (x : ExecResult) : x.statusCode ≠ 3#2 := by
  cases x with
  | ok => decide
  | invalidOperandWidth t => exact (by decide : (1#2 : BitVec 2) ≠ 3#2)
  | unsupportedInstruction g => exact (by decide : (2#2 : BitVec 2) ≠ 3#2)

/-- How many of the 16 target codes give a family each status code: 7 name a register, 4 a pair, 5 nothing. -/
def targetsWithStatus (f : Family) (status : BitVec 2) : Nat :=
  match f, status.toNat with
  | .accumulator8, 0 => 7
  | .accumulator8, 1 => 9
  | .pair16, 0 => 4
  | .pair16, 1 => 12
  | .incDec, 0 => 7
  | .incDec, 1 => 9
  | .noHandler, 2 => 16
  | _, _ => 0

theorem countP_targets_status (g : Tag) (status : BitVec 2) :
    (List.range 16).countP
      (fun tgt => (expectedResult (g.apply (.ofCode (BitVec.ofNat 4 tgt)))).statusCode == status)
      = targetsWithStatus g.family status := by
  revert status
  cases g <;> decide

theorem countP_range_mul (p : Nat → Bool) (k m : Nat) :
    (List.range (k * m)).countP p
      = ((List.range m).map fun i => (List.range k).countP fun j => p (k * i + j)).sum := by
  induction m with
  | zero => rfl
  | succ m ih =>
    rw [Nat.mul_succ, List.range_add, List.countP_append, List.countP_map, ih, List.range_succ, List.map_append,
      List.sum_append, List.map_singleton, List.sum_singleton]
    rfl

/-- The bytes with a given status, counted op code by op code: the count does not depend on the state. -/
theorem countP_bytes_status (s : State) (status : BitVec 2) :
    (List.range 256).countP (fun n => statusOf (exec (decodeByte (BitVec.ofNat 8 n)) s) == some status)
      = ((List.range 16).map fun op => targetsWithStatus (Tag.ofOpCode (BitVec.ofNat 4 op)).family status).sum := by
  rw [countP_range_mul _ 16 16]
  congr 1
  refine List.map_congr_left fun op _ => ?_
  rw [← countP_targets_status]
  refine List.countP_congr fun tgt htgt => ?_
  rw [statusOf_exec, ← commandByte_ofNat op (List.mem_range.mp htgt), decodeByte_commandByte,
    Option.some_beq_some]

end Sys2Proof.Machine
end

section
/-! SUPPORT. Assembler text (30_encoding.md R60): a word and a target name with their separator are taken apart again,
and every name in the three tables is looked up as what it names. -/

namespace Sys2Proof
open Machine Claims

/-- The text of a word ends where neither form's separator has come yet. -/
def isWord (word : List Char) : Bool := word.all fun ch => ch != ' ' && ch != '('

theorem takeWhile_word {word : List Char} (h : isWord word = true) {sep : Char}
    (hs : (sep != ' ' && sep != '(') = false) (rest : List Char) :
    (word ++ sep :: rest).takeWhile (fun ch => ch != ' ' && ch != '(') = word := by
  rw [List.takeWhile_append_of_pos (List.all_eq_true.mp h), List.takeWhile_cons, hs]
  exact List.append_nil word

theorem parseText_plain {word : List Char} (h : isWord word = true) (target : List Char) :
    parseText (word ++ ' ' :: target) = assembleWords (mnemonicNames.lookup (upperCase word)) target := by
  have hword := takeWhile_word h (sep := ' ') rfl target
  simp only [parseText, hword, List.drop_left]

theorem parseText_call {word : List Char} (h : isWord word = true) (target : List Char) :
    parseText (word ++ '(' :: target ++ [')']) = assembleWords (callNames.lookup word) target := by
  rw [List.append_assoc, List.cons_append]
  have hword := takeWhile_word h (sep := '(') rfl (target ++ [')'])
  simp only [parseText, hword, List.drop_left, List.getLast?_concat, List.dropLast_concat, if_true]

theorem assembleWords_some {target : List Char} {t : OperandTarget}
    (h : targetNames.lookup (upperCase target) = some t) (g : Tag) :
    assembleWords (some g) target = some (g.apply t) := by
  simp only [assembleWords, h]

/-! ### The name tables (R50, R52, and the tags of 00_scope.md R11) -/

theorem mem_mnemonicNames {g : Tag} (h : g.family ≠ .noHandler) :
    ((mnemonicSpelling g).toList, g) ∈ mnemonicNames := by
  cases g with
  | inc16 | dec16 | unimplD | unimplE | unimplF => exact absurd rfl h
  | _ => decide

theorem mem_callNames {g : Tag} (h : g.family ≠ .noHandler) : ((callSpelling g).toList, g) ∈ callNames := by
  cases g with
  | inc16 | dec16 | unimplD | unimplE | unimplF => exact absurd rfl h
  | _ => decide

theorem mem_targetNames {t : OperandTarget} (h : ∀ code : Nibble, t ≠ .unassigned code) :
    ((targetSpelling t).toList, t) ∈ targetNames := by
  cases t with
  | reg8 r => cases r <;> decide
  | pair p => cases p <;> decide
  | unassigned code => exact absurd rfl (h code)

theorem find_mnemonicNames : ∀ m ∈ mnemonicNames, mnemonicNames.find? (fun p => p.2 == m.2) = some m := by decide

theorem find_callNames : ∀ m ∈ callNames, callNames.find? (fun p => p.2 == m.2) = some m := by decide

theorem find_targetNames : ∀ n ∈ targetNames, targetNames.find? (fun p => p.2 == n.2) = some n := by decide

theorem lookup_mnemonicNames : ∀ m ∈ mnemonicNames,
    (isWord m.1 = true ∧ mnemonicNames.lookup (upperCase m.1) = some m.2)
    ∧ isWord (m.1.map Char.toLower) = true
    ∧ mnemonicNames.lookup (upperCase (m.1.map Char.toLower)) = some m.2 := by decide

theorem lookup_callNames : ∀ m ∈ callNames, isWord m.1 = true ∧ callNames.lookup m.1 = some m.2 := by decide

theorem lookup_targetNames : ∀ n ∈ targetNames, targetNames.lookup (upperCase n.1) = some n.2
    ∧ targetNames.lookup (upperCase (n.1.map Char.toLower)) = some n.2 := by decide

/-! ### Text and its reading, for a tag and a target of the tables -/

theorem text_apply {m : List Char × Tag} (hm : m ∈ mnemonicNames) {n : List Char × OperandTarget}
    (hn : n ∈ targetNames) : (m.2.apply n.2).text? = some (m.1 ++ ' ' :: n.1) := by
  simp only [Instr.text?, tag_apply, target_apply, find_mnemonicNames m hm, find_targetNames n hn]

theorem callText_apply {m : List Char × Tag} (hm : m ∈ callNames) {n : List Char × OperandTarget}
    (hn : n ∈ targetNames) : (m.2.apply n.2).callText? = some (m.1 ++ '(' :: n.1 ++ [')']) := by
  simp only [Instr.callText?, tag_apply, target_apply, find_callNames m hm, find_targetNames n hn]

theorem parseText_text {m : List Char × Tag} (hm : m ∈ mnemonicNames) {n : List Char × OperandTarget}
    (hn : n ∈ targetNames) : parseText (m.1 ++ ' ' :: n.1) = some (m.2.apply n.2) := by
  obtain ⟨⟨hword, hlookup⟩, -⟩ := lookup_mnemonicNames m hm
  rw [parseText_plain hword, hlookup, assembleWords_some (lookup_targetNames n hn).1]

theorem parseText_text_lower {m : List Char × Tag} (hm : m ∈ mnemonicNames) {n : List Char × OperandTarget}
    (hn : n ∈ targetNames) : parseText ((m.1 ++ ' ' :: n.1).map Char.toLower) = some (m.2.apply n.2) := by
  obtain ⟨-, hword, hlookup⟩ := lookup_mnemonicNames m hm
  have hspace : Char.toLower ' ' = ' ' := rfl
  rw [List.map_append, List.map_cons, hspace, parseText_plain hword, hlookup,
    assembleWords_some (lookup_targetNames n hn).2]

theorem parseText_callText {m : List Char × Tag} (hm : m ∈ callNames) {n : List Char × OperandTarget}
    (hn : n ∈ targetNames) : parseText (m.1 ++ '(' :: n.1 ++ [')']) = some (m.2.apply n.2) := by
  obtain ⟨hword, hlookup⟩ := lookup_callNames m hm
  rw [parseText_call hword, hlookup, assembleWords_some (lookup_targetNames n hn).1]

end Sys2Proof
end

section
/-! The statements of 30_encoding.md, settled from the laws above. -/

namespace Sys2Proof.Machine

/-- Settles O6: the fields of the byte are the codes of what it decodes to, and the bytes are counted by op code. -/
theorem decodingIsTotalWithCounts : Obligations.DecodingIsTotalWithCounts := by
  refine ⟨fun cmd rest => ⟨decodeByte cmd, rfl, wellFormed_decodeByte cmd, ?_, ?_, ?_⟩, fun s => ?_⟩
  · rw [tag_decodeByte, opCode_ofOpCode, opField_toNat]
  · rw [target_decodeByte, code_ofCode, tgtField_toNat]
  · rw [encode, encodeByte_decodeByte]
  · simp only [countP_bytes_status]
    decide

/-- Settles O8: every handled tag and every named target stand in the name tables, whose texts are read back; the
rule's own examples are read by evaluation. -/
theorem assemblerTextIsReadBack : Obligations.AssemblerTextIsReadBack := by
  refine ⟨by decide, by decide, fun g t hg ht => ?_⟩
  have hm := mem_mnemonicNames hg
  have hc := mem_callNames hg
  have hn := mem_targetNames ht
  exact ⟨_, _, text_apply hm hn, callText_apply hc hn, rfl, rfl, parseText_text hm hn, parseText_text_lower hm hn,
    parseText_callText hc hn⟩

/-- Settles O9: the code of a register or pair names it, and every other code names a target of the wrong width. -/
theorem resolversAcceptTheirWidthOnly : Obligations.ResolversAcceptTheirWidthOnly := by
  refine fun code rf => ⟨fun r h => ?_, fun p h => ?_, fun h => ?_, fun h => ?_⟩
  · rw [ofCode_registerNumber h, resolveU8]
  · rw [ofCode_pairNumber h, resolveU16]
  · refine resolveU8_of_not_isReg8 ?_ rf
    rw [isReg8_ofCode, decide_eq_false_iff_not]
    omega
  · refine resolveU16_of_not_isPair ?_ rf
    rw [isPair_ofCode, decide_eq_false_iff_not]
    omega

/-- Settles O30: the recorded result is the one of the table of legal pairs, whose three cases exclude each other. -/
theorem everyExecuteReturnsItsOneStatus : Obligations.EveryExecuteReturnsItsOneStatus := by
  refine ⟨fun i s => ?_, statusCode_ne_three⟩
  obtain ⟨t, ht, hr⟩ := exec_result i s
  refine ⟨t, ht, exec_pending ht, hr, ?_⟩
  rw [hr]
  exact statusCode_expectedResult i

/-- Settles O5, from the rules of the two fields; the rule's examples by evaluation. -/
theorem commandByteIsOpThenTarget : Obligations.CommandByteIsOpThenTarget :=
  ⟨fun i => ⟨encodeByte i, rfl, commandByte_toNat _ _, opField_commandByte _ _, tgtField_commandByte _ _⟩, by decide⟩

end Sys2Proof.Machine
end

section
/-! SUPPORT. What a completed Execute leaves, as numbers and flags (40_dispatch.md R73, R77): each flow's values are
those of its alu function on the values the ports read before, the old flags among them where they are read. -/

namespace Sys2Proof.Machine
open Claims

/-! ### Frames of the two kinds of register write -/

theorem sameExcept_set8 (rf : RegisterFile) (r : Reg8) (v : Byte) : RegisterFile.SameExcept [r] rf (rf.set8 r v) :=
  fun _ hq => get8_set8_of_ne rf v fun h => hq (List.mem_singleton.mpr h)

theorem sameExcept_setPair_hl (rf : RegisterFile) (v : Word16) :
    RegisterFile.SameExcept [.h, .l] rf (rf.setPair .hl v) :=
  fun _ hq => get8_setPair_of_notMem rf v hq

/-- An Execute that commits a register file and then its flags completes, and writes what that file differs in. -/
theorem completesWriting_of_commit {written : List Reg8} {i : Instr} {s : State} {rf : RegisterFile} {f : FlagState}
    (h : exec i s = returnOk (rf.setFlags f) s) (hw : RegisterFile.SameExcept written s.regs rf) :
    CompletesWriting written i s { s with regs := rf.setFlags f, result := .ok } :=
  ⟨h, rfl, rfl, fun r hr => (get8_setFlags rf f r).trans (hw r hr), encode_lowNibble_zero f⟩

@[simp] theorem writeTarget_reg8 (r : Reg8) (v : Byte) (rf : RegisterFile) :
    writeTarget (.reg8 r) v rf = rf.set8 r v := rfl

/-! ### The two flows that write an 8-bit register, from what their alu functions compute -/

theorem writesAccumulator_of_alu {mk : OperandTarget → Instr} {alu : Byte → Byte → Byte × FlagState}
    {value : Nat → Nat → Nat} {flags : Nat → Nat → FlagState}
    (hmk : ∀ t s, exec (mk t) s = executeAccumulator alu t s)
    (hvalue : ∀ a v, (alu a v).1.toNat = value a.toNat v.toNat)
    (hflags : ∀ a v, (alu a v).2 = flags a.toNat v.toNat) : WritesAccumulator mk value flags := by
  intro r s
  refine ⟨_, completesWriting_of_commit (hmk (.reg8 r) s) (sameExcept_set8 s.regs .a _), ?_, ?_⟩
  · rw [num, get8_setFlags, get8_set8_same]
    exact hvalue _ _
  · rw [getFlags_setFlags]
    exact hflags _ _

theorem writesTarget_of_alu {mk : OperandTarget → Instr} {alu : Byte → Bool → Byte × FlagState}
    {value : Nat → Nat} {flags : Nat → Bool → FlagState}
    (hmk : ∀ t s, exec (mk t) s = executeIncDec alu t s)
    (hvalue : ∀ x c0, (alu x c0).1.toNat = value x.toNat)
    (hflags : ∀ x c0, (alu x c0).2 = flags x.toNat c0) : WritesTarget mk value flags := by
  intro r s
  refine ⟨_, completesWriting_of_commit (hmk (.reg8 r) s) (sameExcept_set8 s.regs r _), ?_, ?_⟩
  · rw [num, get8_setFlags, writeTarget_reg8, get8_set8_same]
    exact hvalue _ _
  · rw [getFlags_setFlags]
    exact hflags _ _

/-! ### The alu functions on numbers -/

theorem ofNat_beq_zero (w n : Nat) : (BitVec.ofNat w n == 0#w) = decide (n % 2 ^ w = 0) := by
  rw [Bool.beq_eq_decide_eq, decide_eq_decide, BitVec.toNat_eq, BitVec.toNat_ofNat, BitVec.toNat_ofNat, Nat.zero_mod]

theorem toNat_ofInt_sub (a v : Byte) :
    (BitVec.ofInt 8 ((a.toNat : Int) - (v.toNat : Int))).toNat = (a.toNat + 256 - v.toNat) % 256 := by
  have ha := a.isLt
  have hv := v.isLt
  rw [BitVec.toNat_ofInt]
  omega

theorem addFlags_eq_sumFlags (a v : Byte) : addFlags a v = sumFlags a.toNat v.toNat := by
  rw [addFlags, ofNat_beq_zero, lowNibble_eq_mod, lowNibble_eq_mod]
  rfl

theorem subFlags_eq_differenceFlags (a v : Byte) : subFlags a v = differenceFlags a.toNat v.toNat := by
  have hzero : (BitVec.ofInt 8 ((a.toNat : Int) - (v.toNat : Int)) == 0x00#8) = decide (a.toNat = v.toNat) := by
    have ha := a.isLt
    have hv := v.isLt
    rw [Bool.beq_eq_decide_eq, decide_eq_decide, BitVec.toNat_eq, toNat_ofInt_sub, BitVec.toNat_ofNat]
    omega
  rw [subFlags, differenceFlags, hzero, lowNibble_eq_mod, lowNibble_eq_mod]

theorem addPairFlags_eq_pairSumFlags (h w : Word16) : addPairFlags h w = pairSumFlags h.toNat w.toNat := by
  rw [addPairFlags, ofNat_beq_zero, lowTwelve_eq_mod, lowTwelve_eq_mod]
  rfl

theorem xor_beq_zero (a v : Byte) : (a ^^^ v == 0x00#8) = decide (a.toNat = v.toNat) := by
  rw [Bool.beq_eq_decide_eq, decide_eq_decide, BitVec.xor_eq_zero_iff, BitVec.toNat_eq]

theorem incFlags_eq (x : Byte) (c0 : Bool) :
    incFlags x c0 = ⟨decide (x.toNat = 255), false, decide (x.toNat % 16 = 15), c0⟩ := by
  have hx := x.isLt
  rw [incFlags, ofNat_beq_zero, lowNibble_eq_mod, FlagState.mk.injEq, decide_eq_decide, decide_eq_decide]
  exact ⟨by omega, rfl, by omega, rfl⟩

theorem decFlags_eq (x : Byte) (c0 : Bool) :
    decFlags x c0 = ⟨decide (x.toNat = 1), true, decide (x.toNat % 16 = 0), c0⟩ := by
  have hx := x.isLt
  rw [decFlags, ofNat_beq_zero, lowNibble_eq_mod, FlagState.mk.injEq, decide_eq_decide, Bool.beq_eq_decide_eq]
  exact ⟨by omega, rfl, rfl, rfl⟩

/-! ### What the instructions of R77 write, for every target -/

theorem add_writesAccumulator : WritesAccumulator .add (fun a v => (a + v) % 256) sumFlags :=
  writesAccumulator_of_alu (fun _ _ => rfl) (fun a v => BitVec.toNat_ofNat (a.toNat + v.toNat) 8) addFlags_eq_sumFlags

theorem sub_writesAccumulator : WritesAccumulator .sub (fun a v => (a + 256 - v) % 256) differenceFlags :=
  writesAccumulator_of_alu (fun _ _ => rfl) toNat_ofInt_sub subFlags_eq_differenceFlags

theorem xor_writesAccumulator :
    WritesAccumulator .xor (fun a v => a ^^^ v) (fun a v => ⟨decide (a = v), false, false, false⟩) :=
  writesAccumulator_of_alu (fun _ _ => rfl) BitVec.toNat_xor fun a v => by rw [aluXor, orFlags, xor_beq_zero]

theorem cp_writesFlags (r : Reg8) (s : State) : ∃ t : State, CompletesWriting [] (.cp (.reg8 r)) s t
    ∧ t.regs.getFlags = differenceFlags (num s .a) (num s r) :=
  ⟨_, completesWriting_of_commit rfl fun _ _ => rfl,
    (getFlags_setFlags s.regs _).trans (subFlags_eq_differenceFlags (s.regs.get8 .a) (s.regs.get8 r))⟩

theorem inc_writesTarget : WritesTarget .inc (fun x => (x + 1) % 256)
    (fun x c0 => ⟨decide (x = 255), false, decide (x % 16 = 15), c0⟩) :=
  writesTarget_of_alu (fun _ _ => rfl) (fun x _ => BitVec.toNat_ofNat (x.toNat + 1) 8) incFlags_eq

theorem dec_writesTarget : WritesTarget .dec (fun x => (x + 255) % 256)
    (fun x c0 => ⟨decide (x = 1), true, decide (x % 16 = 0), c0⟩) :=
  writesTarget_of_alu (fun _ _ => rfl) (fun x _ => BitVec.toNat_ofNat (x.toNat + 255) 8) decFlags_eq

theorem addpair_writesHl (p : Pair) (s : State) : ∃ t : State, CompletesWriting [.h, .l] (.addpair (.pair p)) s t
    ∧ pairNum t .hl = (pairNum s .hl + pairNum s p) % 65536
    ∧ t.regs.getFlags = pairSumFlags (pairNum s .hl) (pairNum s p) := by
  refine ⟨_, completesWriting_of_commit rfl (sameExcept_setPair_hl s.regs _), ?_, ?_⟩
  · have hhl (rf : RegisterFile) (f : FlagState) : (rf.setFlags f).getPair .hl = rf.getPair .hl := rfl
    rw [pairNum, hhl, getPair_setPair_of_ne_af _ _ (by decide)]
    exact BitVec.toNat_ofNat _ 16
  · rw [getFlags_setFlags]
    exact addPairFlags_eq_pairSumFlags _ _

/-- The AF view as an operand: F as it stands before the Execute is its low byte. -/
theorem pairNum_af (s : State) : pairNum s .af = 256 * num s .a + s.regs.flagByte.toNat := getPair_toNat s.regs .af

end Sys2Proof.Machine
end

section
/-! SUPPORT. What Execute does with a tag that has no handler (40_dispatch.md R75), and how far the flags held before
can show in what a legal instruction leaves (R74). -/

namespace Sys2Proof.Machine
open Claims

theorem exec_of_noHandler {i : Instr} (h : i.tag.family = .noHandler) (s : State) :
    exec i s = .next { s with result := .unsupportedInstruction i.tag } := by
  have hl : i.legal = false := Bool.eq_false_iff.mpr fun hl => family_ne_noHandler_of_legal hl h
  rw [exec_of_not_legal hl, expectedResult_of_noHandler h]

theorem isUnsupported_apply {g : Tag} (h : g.family = .noHandler) : IsUnsupported g.apply g := by
  intro t s
  have hf : (g.apply t).tag.family = .noHandler := by rw [tag_apply, h]
  rw [exec_of_noHandler hf, tag_apply]

/-- The op codes without handler are 0xB to 0xF (30_encoding.md R51). -/
theorem family_ofOpCode_eq_noHandler :
    ∀ op : Nibble, (Tag.ofOpCode op).family = .noHandler ↔ 0xB ≤ op.toNat := by decide

/-- A successful Execute leaves in F what the flags it committed encode to. -/
theorem exec_f_of_legal {i : Instr} {s t : State} (hl : i.legal = true) (h : exec i s = .next t) :
    t.regs.f = t.regs.getFlags.encode := by
  obtain ⟨-, rf, f, hs⟩ | ⟨hl', -⟩ := exec_spec i s
  · cases hs.symm.trans h
    rw [getFlags_setFlags, setFlags_f]
  · cases hl.symm.trans hl'

/-- Replacing F changes nothing that a legal instruction leaves, where the instruction reads nothing of what was
replaced: the registers it writes and its flags agree by exec_agree, F is those flags, and all else is as before. -/
theorem exec_setFlags_of_agree {i : Instr} {s : State} {f : FlagState} (hl : i.legal = true)
    (ha : AgreeOnReads i (s.regs.setFlags f) s.regs) : exec i { s with regs := s.regs.setFlags f } = exec i s := by
  obtain ⟨t, t', ht, ht', hres, hw⟩ := exec_agree (s := { s with regs := s.regs.setFlags f }) (s' := s) ha
  obtain ⟨u, hu, hok⟩ := exec_result i s
  cases hu.symm.trans ht'
  obtain ⟨hwritten, hflags⟩ := hw (hres.trans (hok.trans (expectedResult_of_legal hl)))
  have hregs : t.regs = t'.regs := by
    refine RegisterFile.ext_ports (fun r => ?_) (by rw [exec_f_of_legal hl ht, exec_f_of_legal hl ht', hflags])
    by_cases hr : r ∈ mayWrite i
    · exact hwritten r hr
    · rw [exec_sameExcept ht r hr, exec_sameExcept ht' r hr, get8_setFlags]
  have hpending : t.pending = t'.pending := (exec_pending ht).trans (exec_pending ht').symm
  have hstate : t = t' := by
    cases t
    cases t'
    cases hregs
    cases hres
    cases hpending
    rfl
  rw [ht, ht', hstate]

/-- Only Carry, for INC and DEC, and the whole of F, for ADDPAIR AF, are read of the flags held before. -/
theorem agreeOnReads_setFlags {i : Instr} {rf : RegisterFile} {f : FlagState}
    (hc : i.tag.family = .incDec → f.carry = rf.getFlags.carry) (haf : i ≠ .addpair (.pair .af)) :
    AgreeOnReads i (rf.setFlags f) rf :=
  ⟨fun r _ => get8_setFlags rf f r, fun hi => by rw [getFlags_setFlags, hc hi], fun hi => absurd hi haf⟩

end Sys2Proof.Machine
end

section
/-! The statements of 40_dispatch.md, settled from the laws above. -/

namespace Sys2Proof.Machine
open Claims

/-- Settles O26: the five tags have no handler, and they are the tags of the op codes from 0xB up. -/
theorem unsupportedTagsOnlyReportThemselves : Obligations.UnsupportedTagsOnlyReportThemselves := by
  refine ⟨isUnsupported_apply (g := .inc16) rfl, isUnsupported_apply (g := .dec16) rfl,
    isUnsupported_apply (g := .unimplD) rfl, isUnsupported_apply (g := .unimplE) rfl,
    isUnsupported_apply (g := .unimplF) rfl, fun cmd s h => ⟨Tag.ofOpCode (opField cmd), ?_, ?_⟩⟩
  · rw [opCode_ofOpCode, opField_toNat]
  · refine isUnsupported_apply ((family_ofOpCode_eq_noHandler _).mpr ?_) _ s
    rw [opField_toNat]
    omega

/-- Settles O27: each clause is the instruction's general rule at the target that is also its destination, where both
operands are the one old value. -/
theorem sourceAsDestinationGivesItsOldValue : Obligations.SourceAsDestinationGivesItsOldValue := by
  refine fun s => ⟨?_, ?_, ?_, ?_, ?_, ?_, ?_, ?_⟩
  · obtain ⟨t, ht, hvalue, hflags⟩ := add_writesAccumulator .a s
    exact ⟨t, ht, by rw [hvalue, Nat.two_mul], hflags⟩
  · obtain ⟨t, ht, hvalue, hflags⟩ := sub_writesAccumulator .a s
    exact ⟨t, ht, by simp [hvalue], by simp [hflags, differenceFlags]⟩
  · obtain ⟨t, ht, hvalue, hflags⟩ := xor_writesAccumulator .a s
    exact ⟨t, ht, by simp [hvalue], by simp [hflags]⟩
  · obtain ⟨t, ht, hflags⟩ := cp_writesFlags .a s
    exact ⟨t, ht, by simp [hflags, differenceFlags]⟩
  · obtain ⟨t, ht, hvalue, hflags⟩ := addpair_writesHl .hl s
    exact ⟨t, ht, by rw [hvalue, Nat.two_mul], hflags⟩
  · obtain ⟨t, ht, hvalue, hflags⟩ := addpair_writesHl .af s
    rw [pairNum_af] at hvalue hflags
    exact ⟨t, ht, by rw [hvalue, Nat.add_assoc], hflags⟩
  · obtain ⟨t, ht, hvalue, -⟩ := inc_writesTarget .a s
    exact ⟨t, ht, hvalue⟩
  · obtain ⟨t, ht, hvalue, -⟩ := dec_writesTarget .a s
    exact ⟨t, ht, hvalue⟩

/-- Settles O31: an Execute whose result is an error has changed nothing but that result. -/
theorem failedExecuteChangesNoRegister : Obligations.FailedExecuteChangesNoRegister :=
  fun _ _ _ h he => ⟨exec_regs_of_error h he, exec_pending h⟩

/-- Settles O33: replacing F replaces nothing the instruction reads, but Carry for INC and DEC and F for ADDPAIR AF. -/
theorem successfulExecuteOverwritesAllFlags : Obligations.SuccessfulExecuteOverwritesAllFlags := by
  refine fun i s f hl => ⟨fun hi haf => ?_, fun hi hc => ?_⟩
  · exact exec_setFlags_of_agree hl (agreeOnReads_setFlags (fun h => absurd h hi) haf)
  · have haf : i ≠ .addpair (.pair .af) := by
      rintro rfl
      cases hi
    exact exec_setFlags_of_agree hl (agreeOnReads_setFlags (fun _ => hc) haf)

end Sys2Proof.Machine
end

section
/-! SUPPORT. What the 8-bit instructions share (40_dispatch.md R70, R74; 30_encoding.md R55): the bytes of their
register forms, their width error, and that none of the accumulator instructions reads the flags held before. -/

namespace Sys2Proof.Machine
open Claims

theorem code_toNat_reg8 (r : Reg8) : r.code.toNat = registerNumber r := by cases r <;> rfl

/-- The register forms of any tag are the seven bytes from 16 times its op code. -/
theorem encodedFrom_apply (g : Tag) : EncodedFrom (16 * g.opCode.toNat) g.apply := by
  intro r
  have hbyte : BitVec.ofNat 8 (16 * g.opCode.toNat + registerNumber r) = commandByte g.opCode r.code := by
    apply BitVec.eq_of_toNat_eq
    rw [← code_toNat_reg8, ← commandByte_toNat, BitVec.ofNat_toNat, BitVec.setWidth_eq]
  rw [hbyte, decodeByte_commandByte, ofOpCode_opCode, ofCode_registerNumber (code_toNat_reg8 r)]

/-- The tags whose operand is an 8-bit register are legal with a register and with nothing else. -/
theorem legal_apply {g : Tag} (h : g.family = .accumulator8 ∨ g.family = .incDec) (t : OperandTarget) :
    (g.apply t).legal = t.isReg8 := by
  obtain h | h := h <;> rw [Instr.legal, tag_apply, target_apply, h]

theorem rejectsAllButRegisters_apply {g : Tag} (h : g.family = .accumulator8 ∨ g.family = .incDec) :
    RejectsAllButRegisters g.apply := by
  intro t s ht
  have hl : (g.apply t).legal = false := (legal_apply h t).trans ht
  have hf : (g.apply t).tag.family ≠ .noHandler := by
    rw [tag_apply]
    obtain h | h := h <;> rw [h] <;> decide
  rw [exec_of_not_legal hl, expectedResult_of_wrong_width hl hf, target_apply]

/-- The flags held before an accumulator instruction show in nothing it leaves. -/
theorem exec_accumulator_setFlags {g : Tag} (h : g.family = .accumulator8) (r : Reg8) (s : State) (f : FlagState) :
    exec (g.apply (.reg8 r)) { s with regs := s.regs.setFlags f } = exec (g.apply (.reg8 r)) s := by
  have hf : (g.apply (.reg8 r)).tag.family = .accumulator8 := by rw [tag_apply, h]
  refine exec_setFlags_of_agree (legal_apply (.inl h) (.reg8 r)) (agreeOnReads_setFlags (fun hi => ?_) fun haf => ?_)
  · cases hf.symm.trans hi
  · rw [haf] at hf
    cases hf

/-! ### ADC and SBC on numbers (R81, R83) -/

theorem sumFlags_carry_toNat (a v : Nat) : (sumFlags a v).carry.toNat = if a + v > 255 then 1 else 0 :=
  Bool.cond_decide _ 1 0

theorem differenceFlags_carry_toNat (a v : Nat) : (differenceFlags a v).carry.toNat = if a < v then 1 else 0 :=
  Bool.cond_decide _ 1 0

theorem aluAdc_toNat (a v : Byte) :
    (aluAdc a v).1.toNat = (a.toNat + v.toNat + (if a.toNat + v.toNat > 255 then 1 else 0)) % 256 := by
  have hsum : (aluAdd a v).1.toNat = (a.toNat + v.toNat) % 256 := BitVec.toNat_ofNat _ 8
  rw [aluAdc, BitVec.toNat_ofNat, hsum, addFlags_eq_sumFlags, sumFlags_carry_toNat, Nat.mod_add_mod]

theorem aluSbc_toNat (a v : Byte) :
    (aluSbc a v).1.toNat = (a.toNat + 256 - v.toNat - (if a.toNat < v.toNat then 1 else 0)) % 256 := by
  have ha := a.isLt
  have hv := v.isLt
  have hdiff : (aluSub a v).1.toNat = (a.toNat + 256 - v.toNat) % 256 := toNat_ofInt_sub a v
  rw [aluSbc, BitVec.toNat_ofInt, hdiff, subFlags_eq_differenceFlags, differenceFlags_carry_toNat]
  split <;> omega

theorem adc_writesAccumulator :
    WritesAccumulator .adc (fun a v => (a + v + (if a + v > 255 then 1 else 0)) % 256) sumFlags :=
  writesAccumulator_of_alu (fun _ _ => rfl) aluAdc_toNat addFlags_eq_sumFlags

theorem sbc_writesAccumulator :
    WritesAccumulator .sbc (fun a v => (a + 256 - v - (if a < v then 1 else 0)) % 256) differenceFlags :=
  writesAccumulator_of_alu (fun _ _ => rfl) aluSbc_toNat subFlags_eq_differenceFlags

/-- Adding the carry out never wraps again: a sum that carried leaves at most 254. -/
theorem sum_add_own_carry {a v : Nat} (ha : a < 256) (hv : v < 256) :
    (a + v + (if a + v > 255 then 1 else 0)) % 256 = (a + v) % 256 + (sumFlags a v).carry.toNat := by
  rw [sumFlags_carry_toNat]
  split <;> omega

/-- Taking the borrow off never wraps again: a difference that borrowed leaves at least 1. -/
theorem difference_sub_own_borrow {a v : Nat} (ha : a < 256) (hv : v < 256) :
    (a + 256 - v - (if a < v then 1 else 0)) % 256 + (differenceFlags a v).carry.toNat = (a + 256 - v) % 256 := by
  rw [differenceFlags_carry_toNat]
  split <;> omega

end Sys2Proof.Machine
end

section
/-! The statements of 41_alu8_arith.md, settled from the laws above. -/

namespace Sys2Proof.Machine
open Claims

/-- Settles O15: the register forms, the sum that R80 writes, and the width error each by its own rule. -/
theorem addAddsIntoTheAccumulator : Obligations.AddAddsIntoTheAccumulator :=
  ⟨encodedFrom_apply .add, add_writesAccumulator, rejectsAllButRegisters_apply (g := .add) (.inl rfl)⟩

/-- Settles O16: as ADD, with the carry of the base addition in the value and ADD's flags. -/
theorem adcAddsItsOwnCarry : Obligations.AdcAddsItsOwnCarry :=
  ⟨encodedFrom_apply .adc, adc_writesAccumulator, rejectsAllButRegisters_apply (g := .adc) (.inl rfl)⟩

/-- Settles O17: the register forms, the difference that R82 writes, and the width error each by its own rule. -/
theorem subSubtractsFromTheAccumulator : Obligations.SubSubtractsFromTheAccumulator :=
  ⟨encodedFrom_apply .sub, sub_writesAccumulator, rejectsAllButRegisters_apply (g := .sub) (.inl rfl)⟩

/-- Settles O18: as SUB, with the borrow of the base subtraction in the value and SUB's flags. -/
theorem sbcSubtractsItsOwnBorrow : Obligations.SbcSubtractsItsOwnBorrow :=
  ⟨encodedFrom_apply .sbc, sbc_writesAccumulator, rejectsAllButRegisters_apply (g := .sbc) (.inl rfl)⟩

/-- Settles O19: the register forms, SUB's flags with no register written, and the width error each by its own rule. -/
theorem cpCommitsFlagsOnly : Obligations.CpCommitsFlagsOnly :=
  ⟨encodedFrom_apply .cp, cp_writesFlags, rejectsAllButRegisters_apply (g := .cp) (.inl rfl)⟩

/-- Settles O28: the flags f show in nothing, so all five run on one state, and what they write are the rules of R80 to
R84, whose values differ by the carry or borrow committed. -/
theorem carryVariantsFollowTheirBaseOperation : Obligations.CarryVariantsFollowTheirBaseOperation := by
  intro r s f
  have ha : num s .a < 256 := (s.regs.get8 .a).isLt
  have hr : num s r < 256 := (s.regs.get8 r).isLt
  obtain ⟨tAdd, ⟨hAdd, -⟩, hAddValue, hAddFlags⟩ := add_writesAccumulator r s
  obtain ⟨tAdc, ⟨hAdc, -⟩, hAdcValue, hAdcFlags⟩ := adc_writesAccumulator r s
  obtain ⟨tSub, ⟨hSub, -⟩, hSubValue, hSubFlags⟩ := sub_writesAccumulator r s
  obtain ⟨tSbc, ⟨hSbc, -⟩, hSbcValue, hSbcFlags⟩ := sbc_writesAccumulator r s
  obtain ⟨tCp, ⟨hCp, -, -, hCpFrame, -⟩, hCpFlags⟩ := cp_writesFlags r s
  refine ⟨tAdd, tAdc, tSub, tSbc, tCp, hAdd, hSub,
    (exec_accumulator_setFlags (g := .adc) rfl r s f).trans hAdc,
    (exec_accumulator_setFlags (g := .sbc) rfl r s f).trans hSbc,
    (exec_accumulator_setFlags (g := .cp) rfl r s f).trans hCp,
    hAdcFlags.trans hAddFlags.symm, hSbcFlags.trans hSubFlags.symm, hCpFlags.trans hSubFlags.symm,
    congrArg BitVec.toNat (hCpFrame .a List.not_mem_nil), ?_, ?_⟩
  · rw [hAdcValue, hAddValue, hAddFlags]
    exact sum_add_own_carry ha hr
  · rw [hSbcValue, hSubValue, hSubFlags]
    exact difference_sub_own_borrow ha hr

end Sys2Proof.Machine
end

section
/-! SUPPORT. AND and OR on numbers (42_alu8_logic.md R90, R91). XOR, which R77 needs too, stands with the rules of
R77: `xor_writesAccumulator`. -/

namespace Sys2Proof.Machine
open Claims

/-- How AND and OR read Z off the result byte (R90, R91), as its number. -/
theorem beq_zero_eq_decide_toNat (x : Byte) : (x == 0x00#8) = decide (x.toNat = 0) := by
  rw [Bool.beq_eq_decide_eq, decide_eq_decide, BitVec.toNat_eq, BitVec.toNat_ofNat, Nat.zero_mod]

/-- R91 reads Z off the result; O21 reads it off the operands. -/
theorem or_beq_zero (a v : Byte) : (a ||| v == 0x00#8) = decide (a.toNat = 0 ∧ v.toNat = 0) := by
  rw [beq_zero_eq_decide_toNat, decide_eq_decide, BitVec.toNat_or, Nat.or_eq_zero_iff]

theorem and_writesAccumulator :
    WritesAccumulator .and (fun a v => a &&& v) (fun a v => ⟨decide (a &&& v = 0), false, true, false⟩) :=
  writesAccumulator_of_alu (fun _ _ => rfl) BitVec.toNat_and fun a v => by
    rw [aluAnd, andFlags, beq_zero_eq_decide_toNat, BitVec.toNat_and]

theorem or_writesAccumulator :
    WritesAccumulator .or (fun a v => a ||| v) (fun a v => ⟨decide (a = 0 ∧ v = 0), false, false, false⟩) :=
  writesAccumulator_of_alu (fun _ _ => rfl) BitVec.toNat_or fun a v => by rw [aluOr, orFlags, or_beq_zero]

end Sys2Proof.Machine
end

section
/-! The statements of 42_alu8_logic.md, settled from the laws above. -/

namespace Sys2Proof.Machine
open Claims

/-- Settles O20: the register forms, the masked value that R90 writes, and the width error each by its own rule. -/
theorem andMasksTheAccumulator : Obligations.AndMasksTheAccumulator :=
  ⟨encodedFrom_apply .and, and_writesAccumulator, rejectsAllButRegisters_apply (g := .and) (.inl rfl)⟩

/-- Settles O21: as AND, with the merge that R91 writes; its Z is that of two zero operands by or_beq_zero. -/
theorem orMergesIntoTheAccumulator : Obligations.OrMergesIntoTheAccumulator :=
  ⟨encodedFrom_apply .or, or_writesAccumulator, rejectsAllButRegisters_apply (g := .or) (.inl rfl)⟩

/-- Settles O22: as OR, with the toggled value that R92 writes; its Z is that of equal operands by xor_beq_zero. -/
theorem xorTogglesTheAccumulator : Obligations.XorTogglesTheAccumulator :=
  ⟨encodedFrom_apply .xor, xor_writesAccumulator, rejectsAllButRegisters_apply (g := .xor) (.inl rfl)⟩

end Sys2Proof.Machine
end

section
/-! SUPPORT. How the frames of two Executes combine, for one register written and then restored (43_incdec.md R102). -/

namespace Sys2Proof.Machine

theorem RegisterFile.SameExcept.trans {written : List Reg8} {x y z : RegisterFile}
    (hxy : RegisterFile.SameExcept written x y) (hyz : RegisterFile.SameExcept written y z) :
    RegisterFile.SameExcept written x z :=
  fun q hq => (hyz q hq).trans (hxy q hq)

/-- A frame with one exception is a whole frame once the register excepted reads as before. -/
theorem RegisterFile.SameExcept.nil_of_restored {r : Reg8} {x y : RegisterFile}
    (h : RegisterFile.SameExcept [r] x y) (hr : y.get8 r = x.get8 r) : RegisterFile.SameExcept [] x y := by
  intro q _
  by_cases hq : q = r
  · rw [hq, hr]
  · exact h q (List.mem_singleton.not.mpr hq)

end Sys2Proof.Machine
end

section
/-! The statements of 43_incdec.md, settled from the laws above. -/

namespace Sys2Proof.Machine
open Claims

/-- Settles O23: the register forms, the increment that R100 writes, and the width error each by its own rule. -/
theorem incIncrementsAndKeepsCarry : Obligations.IncIncrementsAndKeepsCarry :=
  ⟨encodedFrom_apply .inc, inc_writesTarget, rejectsAllButRegisters_apply (g := .inc) (.inr rfl)⟩

/-- Settles O24: the register forms, the decrement that R101 writes, and the width error each by its own rule. -/
theorem decDecrementsAndKeepsCarry : Obligations.DecDecrementsAndKeepsCarry :=
  ⟨encodedFrom_apply .dec, dec_writesTarget, rejectsAllButRegisters_apply (g := .dec) (.inr rfl)⟩

/-- Settles O29: DEC runs on the state INC left, where r reads (x + 1) mod 256 and Carry is the old one; adding 255 to
that gives x back, so the one register that the two frames except is restored too. -/
theorem incThenDecRestoresTheRegister : Obligations.IncThenDecRestoresTheRegister := by
  intro r s
  obtain ⟨t, ⟨hInc, -, -, hIncFrame, -⟩, hIncValue, hIncFlags⟩ := inc_writesTarget r s
  obtain ⟨u, ⟨hDec, -, -, hDecFrame, -⟩, hDecValue, hDecFlags⟩ := dec_writesTarget r t
  rw [hIncValue, hIncFlags] at hDecFlags
  have hx : num s r < 256 := (s.regs.get8 r).isLt
  have hRestored : num u r = num s r := calc
    num u r = ((num s r + 1) % 256 + 255) % 256 := by rw [hDecValue, hIncValue]
    _ = num s r := by omega
  refine ⟨t, u, hInc, hDec, hRestored,
    (hIncFrame.trans hDecFrame).nil_of_restored (BitVec.eq_of_toNat_eq hRestored), ?_⟩
  rw [hDecFlags]
  exact ⟨rfl, rfl, rfl, rfl⟩

end Sys2Proof.Machine
end

section
/-! SUPPORT. ADDPAIR's bytes and its width error (30_encoding.md R55; 40_dispatch.md R71), and how HL splits into its
two registers (10_state.md R29). What ADDPAIR writes stands with the rules of R77: `addpair_writesHl`. -/

namespace Sys2Proof.Machine
open Claims

theorem code_toNat_pair (p : Pair) : p.code.toNat = 8 + pairNumber p := by cases p <;> rfl

/-- The pair forms of any tag are four bytes in a row, the AF form first. -/
theorem decodeByte_pairForm (g : Tag) (p : Pair) :
    decodeByte (BitVec.ofNat 8 (16 * g.opCode.toNat + 8 + pairNumber p)) = g.apply (.pair p) := by
  have hbyte : BitVec.ofNat 8 (16 * g.opCode.toNat + 8 + pairNumber p) = commandByte g.opCode p.code := by
    apply BitVec.eq_of_toNat_eq
    rw [Nat.add_assoc, ← code_toNat_pair, ← commandByte_toNat, BitVec.ofNat_toNat, BitVec.setWidth_eq]
  rw [hbyte, decodeByte_commandByte, ofOpCode_opCode, ofCode_pairNumber (code_toNat_pair p)]

theorem addpair_of_not_isPair {t : OperandTarget} (h : t.isPair = false) (s : State) :
    exec (.addpair t) s = .next { s with result := .invalidOperandWidth t } := by
  have hl : (Instr.addpair t).legal = false := h
  have hf : (Instr.addpair t).tag.family ≠ .noHandler := by simp [Instr.tag, Tag.family]
  rw [exec_of_not_legal hl, expectedResult_of_wrong_width hl hf, Instr.target]

/-- HL as a number is H and L as its quotient and remainder by 256. -/
theorem num_h_l_eq_div_mod_pairNum_hl (s : State) :
    num s .h = pairNum s .hl / 256 ∧ num s .l = pairNum s .hl % 256 := by
  have hconcat : pairNum s .hl = 256 * num s .h + num s .l := getPair_toNat s.regs .hl
  have hlow : num s .l < 256 := (s.regs.get8 .l).isLt
  omega

end Sys2Proof.Machine
end

section
/-! The statement of 44_alu16_pair.md, settled from the laws above. -/

namespace Sys2Proof.Machine
open Claims

/-- Settles O25: the pair forms, the sum that R110 writes, split over H and L, and the width error each by its own
rule. -/
theorem addPairAddsIntoHl : Obligations.AddPairAddsIntoHl := by
  refine ⟨decodeByte_pairForm .addpair, fun p s => ?_, fun _ s h => addpair_of_not_isPair h s⟩
  obtain ⟨t, ht, hvalue, hflags⟩ := addpair_writesHl p s
  obtain ⟨hhigh, hlow⟩ := num_h_l_eq_div_mod_pairNum_hl t
  exact ⟨t, ht, hvalue, hhigh, hlow, hflags⟩

end Sys2Proof.Machine
end

section
/-! SUPPORT. The recorded result (60_exceptions.md R126): no Execute reads it, and it is all that a failed Execute
changes. -/

namespace Sys2Proof.Machine

theorem exec_set_result (i : Instr) (s : State) (x : ExecResult) : exec i { s with result := x } = exec i s := by
  cases hl : i.legal with
  | true =>
    cases commits_of_legal hl with
    | accumulator _ _ _ _ runs | compare _ _ _ _ runs | pair _ _ _ runs | incDec _ _ _ _ _ runs =>
      exact (runs { s with result := x }).trans (runs s).symm
  | false => exact (exec_of_not_legal hl { s with result := x }).trans (exec_of_not_legal hl s).symm

theorem eq_set_result_of_error {i : Instr} {s t : State} (h : exec i s = .next t) (he : t.result ≠ .ok) :
    t = { s with result := t.result } := by
  have hregs : t.regs = s.regs := exec_regs_of_error h he
  have hpending : t.pending = s.pending := exec_pending h
  rw [← hregs, ← hpending]

end Sys2Proof.Machine
end

section
/-! The statement of 60_exceptions.md on earlier errors, settled from the laws above. -/

namespace Sys2Proof.Machine

/-- Settles O32: a failed Execute has changed the recorded result alone, which no Execute reads, so the same command
finds all it reads as it was. -/
theorem earlierErrorsHaveNoInfluence : Obligations.EarlierErrorsHaveNoInfluence := by
  refine ⟨exec_set_result, fun i s t h he => ?_⟩
  calc exec i t = exec i { s with result := t.result } := congrArg (exec i) (eq_set_result_of_error h he)
    _ = exec i s := exec_set_result i s t.result
    _ = .next t := h

end Sys2Proof.Machine
end

section
/-! SUPPORT. One step always answers (70_reset_and_hazards.md R151): a next state from every state, with the oldest
command taken, if one waits. With the invariant that every step keeps (10_state.md R21) this makes each run safe. -/

namespace Sys2Proof.Machine

/-- A step takes the oldest command and no other; an idle step, with nothing to take, leaves nothing to take. -/
theorem step_next_pending (s : State) : ∃ t, step s = .next t ∧ t.pending = s.pending.tail := by
  cases hq : s.pending with
  | nil => exact ⟨s, step_of_nothing hq, hq⟩
  | cons cmd rest =>
    obtain ⟨t, ht⟩ := exec_next (decodeByte cmd) { s with pending := rest }
    exact ⟨t, (step_of_pending hq).trans ht, exec_pending ht⟩

theorem safeFrom_of_inv {s : State} (hs : s.inv = true) : SafeFrom s := by
  intro t hrun
  obtain ⟨u, hu, -⟩ := step_next_pending t
  have ht : t.inv = true := hrun.keeps (P := fun v => v.inv = true) hs everyStepKeepsTheLowNibbleOfFZero
  exact ⟨ht, u, hu⟩

/-- The commands issued are no part of the register file, so creation is a start state whatever they are. -/
theorem inv_reset_pending (cmds : List Byte) : State.inv { State.reset with pending := cmds } = true := by
  obtain ⟨-, -, -, -, hreset⟩ := creationLeavesAllRegistersZero
  exact hreset

end Sys2Proof.Machine
end

section
/-! The statements of 70_reset_and_hazards.md, settled from the laws above. -/

namespace Sys2Proof.Machine

/-- Settles O41: the low nibble of F is 0 at the start and after every step, and every step answers. -/
theorem everyStartStateIsSafe : Obligations.EveryStartStateIsSafe :=
  ⟨fun _ hs => safeFrom_of_inv hs, fun cmds => safeFrom_of_inv (inv_reset_pending cmds)⟩

/-- Settles O39, by induction over k: the first step takes the oldest command, the other k those that follow it. -/
theorem everyRunCompletes : Obligations.EveryRunCompletes := by
  intro k
  induction k with
  | zero => exact fun s => ⟨s, core_run_zero s, List.drop_zero.symm⟩
  | succ k ih =>
    intro s
    obtain ⟨t, ht, htake⟩ := step_next_pending s
    obtain ⟨u, hu, hrest⟩ := ih t
    refine ⟨u, (core_run_succ ht k).trans hu, ?_⟩
    rw [hrest, htake, List.drop_tail]

end Sys2Proof.Machine
end

section
/-! SUPPORT. The other direction of the command byte (30_encoding.md sections 2 and 3), the opcode table's rows
(section 7), and the byte of a placed word (log 4). -/

namespace Sys2Proof
open Machine

/-! ### Decoding what was encoded (R52 to R55) -/

/-- An unassigned code names nothing else, so it is read back as itself (R53). -/
theorem ofCode_of_unassigned : ∀ code ∈ unassignedCodes, OperandTarget.ofCode code = .unassigned code := by decide

theorem ofCode_code_of_wellFormed {t : OperandTarget} (h : t.wellFormed = true) : OperandTarget.ofCode t.code = t := by
  cases t with
  | reg8 r => exact ofCode_registerNumber (code_toNat_reg8 r)
  | pair p => exact ofCode_pairNumber (code_toNat_pair p)
  | unassigned code => exact ofCode_of_unassigned code (List.contains_iff_mem.mp h)

theorem decodeByte_encodeByte {i : Instr} (h : i.wellFormed = true) : decodeByte (encodeByte i) = i := by
  rw [encodeByte, decodeByte_commandByte, ofOpCode_opCode, ofCode_code_of_wellFormed h, apply_tag_target]

/-! ### The rows of the opcode table (section 7) -/

open Laws in
/-- The table has the row of every instruction. -/
theorem exists_row_selects_encodeByte : ∀ i : Instr, TableRow.Statement i
  | .add t => TableRow.add t
  | .adc t => TableRow.adc t
  | .addpair t => TableRow.addpair t
  | .sub t => TableRow.sub t
  | .sbc t => TableRow.sbc t
  | .and t => TableRow.and t
  | .or t => TableRow.or t
  | .xor t => TableRow.xor t
  | .cp t => TableRow.cp t
  | .inc t => TableRow.inc t
  | .dec t => TableRow.dec t
  | .inc16 t => TableRow.inc16 t
  | .dec16 t => TableRow.dec16 t
  | .unimplD t => TableRow.unimplD t
  | .unimplE t => TableRow.unimplE t
  | .unimplF t => TableRow.unimplF t

theorem mask_of_mem_opcodeTable : ∀ row ∈ opcodeTable, row.mask = 0xF0#8 := by decide

theorem eq_of_pattern_eq : ∀ row ∈ opcodeTable, ∀ other ∈ opcodeTable, other.pattern = row.pattern → other = row := by
  decide

theorem pattern_of_selects {row : OpcodeRow} (hrow : row ∈ opcodeTable) {cmd : Byte} (h : row.selects cmd = true) :
    row.pattern = cmd &&& 0xF0#8 := by
  rw [← mask_of_mem_opcodeTable row hrow]
  exact (eq_of_beq h).symm

/-- All rows look at the same four bits of a byte, and each wants another value there. -/
theorem eq_of_selects {row other : OpcodeRow} (hrow : row ∈ opcodeTable) (hother : other ∈ opcodeTable) {cmd : Byte}
    (h : row.selects cmd = true) (h' : other.selects cmd = true) : other = row :=
  eq_of_pattern_eq row hrow other hother ((pattern_of_selects hother h').trans (pattern_of_selects hrow h).symm)

/-! ### A placed word (R58) -/

theorem tableByte_of_lt {w : Nat} (h : w < 256) : tableByte 8 w = BitVec.ofNat 8 w :=
  congrArg (BitVec.ofNat 8) (Nat.mod_eq_of_lt h)

theorem decodeTableWord_eq (nbits w : Nat) : decodeTableWord nbits w = some (decodeByte (tableByte nbits w)) := rfl

theorem step_withFetchWord (s : State) (nbits w : Nat) :
    step (s.withFetchWord nbits w) = exec (decodeByte (tableByte nbits w)) s :=
  step_of_pending (issue_pending s (tableByte nbits w))

end Sys2Proof
end

section
/-! The statements of 30_encoding.md on round trips, rows, placed words and written-out bytes, settled from the laws
above. -/

namespace Sys2Proof.Machine

/-- Settles O4: the fields of the encoded byte are the codes of the tag and the target, and each code names what it is
the code of. -/
theorem encodedInstructionDecodesToItself : Obligations.EncodedInstructionDecodesToItself := by
  intro i rest h
  rw [encode, List.singleton_append, decode, decodeByte_encodeByte h]

/-- Settles O7: the byte is the encoding of what it decodes to, which selects the row of its tag, and no byte selects
two rows. -/
theorem eachByteSelectsItsOneTableRow : Obligations.EachByteSelectsItsOneTableRow := by
  intro cmd rest i h
  cases h
  obtain ⟨row, hrow, htag, hsel⟩ := exists_row_selects_encodeByte (decodeByte cmd)
  rw [encodeByte_decodeByte] at hsel
  exact ⟨row, hrow, htag, hsel, fun other hother => eq_of_selects hrow hother hsel⟩

/-- Settles O2: the placed word is the oldest command of a state that is s once it is taken. -/
theorem placedWordIsExecutedNext : Obligations.PlacedWordIsExecutedNext := by
  intro s w hw
  rw [← tableByte_of_lt hw]
  exact ⟨step_withFetchWord s 8 w, decodeTableWord_eq 8 w⟩

/-- Settles O3, a fixed list of sixteen bytes, by evaluating the decoder on each. -/
theorem writtenOutBytesDecode : Obligations.WrittenOutBytesDecode := ⟨by decide, by decide, by decide⟩

end Sys2Proof.Machine
end
